-- ==== Sys2Proof/Config.lean ====
section
/-! DEFINITION. What an implementation fixes (`NV`, `NB`, `HOST_ATTACH`: spec/00_scope.md R6, R7, spec/20_memory.md R52)
and the free values of the model (the timing draws of edges no list describes; notes/assumptions/4.md). -/

namespace Sys2Proof

/-- How a host reaches the block: the open parameter `HOST_ATTACH` (R52). No rule reads it (notes/assumptions/12.md). -/
inductive HostAttach where
  | bus
  | coprocessorPort
  | memoryMappedWindow
  | unspecified
deriving DecidableEq, Repr

/-- The parameters of an implementation, with the bounds the spec gives them, so that every value of this type is a legal
implementation (R2, R6, R7). -/
structure Config where
  /-- `NV`, the number of vector registers (R6) -/
  nv : Nat
  /-- `NB`, the number of buckets of storage in each vector register (R7) -/
  nb : Nat
  /-- `HOST_ATTACH` (R52) -/
  hostAttach : HostAttach
  two_le_nv : 2 ≤ nv
  nv_le : nv ≤ 16
  one_le_nb : 1 ≤ nb
  nb_le : nb ≤ 2 ^ 32
deriving DecidableEq, Repr

/-- The parameters of `State.reset`: the conventions of spec/95_test_vectors.md, `NV = 4`, `NB = 64`
(DESIGN CHOICE, notes/assumptions/1.md: the spec fixes no value). -/
def Config.testVectors : Config where
  nv := 4
  nb := 64
  hostAttach := .unspecified
  two_le_nv := by decide
  nv_le := by decide
  one_le_nb := by decide
  nb_le := by decide

/-- Free value: whether a command in flight completes at the `n`-th edge the host's list does not describe (the latency is
unspecified: R62, R240, I1). No body: nothing can evaluate it. -/
opaque Config.idleDone : Nat → Bool

/-- Free value: whether `cmd_ready` may be 1 after the `n`-th edge the host's list does not describe (the delay is
unspecified: R62, R232, I2). -/
opaque Config.idleReady : Nat → Bool

/-- Free value: the `RESULT` of a `GROW` whose bucket count does not fit the 64-bit register (only `WRW` at index `2^64 - 1`,
which would need `2^64` buckets: R181 gives `i + 1`, R30 gives 64 bits; notes/assumptions/20.md). -/
opaque Config.growOverflow : Nat → BitVec 64

end Sys2Proof
end

