-- ==== Sys2Proof/Word.lean ====
section
/-! DEFINITION. The value types of the block: buckets, operands, vector indices, the command triple and the fill modes
(spec/00_scope.md R8 to R11, spec/30_encoding.md R61, R63, R65). -/

namespace Sys2Proof

/-- A bucket: one 32-bit word (R8); bit 0 is the lowest offset (R10, R43). -/
abbrev Word := BitVec 32

/-- `OPND`: an unsigned 64-bit offset, size or bucket index (R9). -/
abbrev Opnd := BitVec 64

/-- A `VA` or `VB` field: a 4-bit vector index (R63). -/
abbrev VIdx := BitVec 4

/-- `zeros_32` (R10). -/
abbrev zeros32 : Word := 0x00000000#32

/-- `ones_32` (R10). -/
abbrev ones32 : Word := 0xFFFFFFFF#32

/-- The triple the block samples when it accepts a command (R61). -/
structure Command where
  /-- the command word `CMD` -/
  cmd : BitVec 32
  /-- the operand `OPND` -/
  opnd : Opnd
  /-- the operand `DATA` -/
  data : Word
deriving DecidableEq, Repr

/-- The legal fill modes `FM` of `INIT` (R65): `00` absent, `01` zero words, `10` all-one words. -/
inductive FillMode where
  | absent
  | zeros
  | ones
deriving DecidableEq, Repr

end Sys2Proof
end

