-- ==== Sys2Proof/Syntax.lean ====
section
/-! DEFINITION. The command set: one constructor per row of spec/opcode_table.json (spec/30_encoding.md R68), with the
operands its rule reads (R64), and the aliases of R75. -/

namespace Sys2Proof

/-- A decoded command. A command that does not read `OPND` or `DATA` does not carry it (R61, R64). -/
inductive Instr where
  /-- `NOP` (R100) -/
  | nop
  /-- `INIT vA[, #size][, fillN]` (R101): `none` is the unsized form `SZ = 0` -/
  | init (va : VIdx) (size : Option Opnd) (fm : FillMode)
  /-- `UNFIX vA` (R102) -/
  | unfix (va : VIdx)
  /-- `COPY vA, vB` (R161) -/
  | copy (va vb : VIdx)
  /-- `TEST vA, #off` (R123) -/
  | testBit (va : VIdx) (off : Opnd)
  /-- `SET vA, #off` (R124) -/
  | setBit (va : VIdx) (off : Opnd)
  /-- `UNSET vA, #off` (R125) -/
  | unsetBit (va : VIdx) (off : Opnd)
  /-- `TOGGLE vA, #off` (R126) -/
  | toggleBit (va : VIdx) (off : Opnd)
  /-- `COUNT vA` (R127) -/
  | count (va : VIdx)
  /-- `RDLEN vA` (R128) -/
  | rdlen (va : VIdx)
  /-- `RDFIX vA` (R129) -/
  | rdfix (va : VIdx)
  /-- `FILL vA, #imm8` (R141) -/
  | fill (va : VIdx) (imm : BitVec 8)
  /-- `NOT vA` (R142) -/
  | notV (va : VIdx)
  /-- `AND vA, vB` (R143) -/
  | andV (va vb : VIdx)
  /-- `OR vA, vB` (R144) -/
  | orV (va vb : VIdx)
  /-- `XOR vA, vB` (R145) -/
  | xorV (va vb : VIdx)
  /-- `EQ vA, vB` (R160) -/
  | eqV (va vb : VIdx)
  /-- `RDW vA, #idx` (R180) -/
  | rdw (va : VIdx) (idx : Opnd)
  /-- `WRW vA, #idx, #data` (R181) -/
  | wrw (va : VIdx) (idx : Opnd) (data : Word)
deriving DecidableEq, Repr

/-- `CLR vA, #off` = `UNSET vA, #off` (R75). -/
abbrev Instr.clr (va : VIdx) (off : Opnd) : Instr := .unsetBit va off

/-- `CLONE vA, vB` = `COPY vA, vB` (R75). -/
abbrev Instr.clone (va vb : VIdx) : Instr := .copy va vb

/-- `NEW vA` = `INIT vA` (R75). -/
abbrev Instr.new (va : VIdx) : Instr := .init va none .absent

/-- `SETALL vA` = `FILL vA, #1` (R75). -/
abbrev Instr.setAll (va : VIdx) : Instr := .fill va 1#8

/-- `CLEARALL vA` = `FILL vA, #0` (R75). -/
abbrev Instr.clearAll (va : VIdx) : Instr := .fill va 0#8

/-- The vectors a command names: `VA`, then `VB` where its row uses `VB` (R67, R68). -/
def Instr.vectors : Instr → List VIdx
  | .nop => []
  | .init va _ _ => [va]
  | .unfix va => [va]
  | .copy va vb => [va, vb]
  | .testBit va _ => [va]
  | .setBit va _ => [va]
  | .unsetBit va _ => [va]
  | .toggleBit va _ => [va]
  | .count va => [va]
  | .rdlen va => [va]
  | .rdfix va => [va]
  | .fill va _ => [va]
  | .notV va => [va]
  | .andV va vb => [va, vb]
  | .orV va vb => [va, vb]
  | .xorV va vb => [va, vb]
  | .eqV va vb => [va, vb]
  | .rdw va _ => [va]
  | .wrw va _ _ => [va]

/-- The receiver: the one vector a mutating command writes (R16, R21); `none` for a command that writes no vector. -/
def Instr.receiver : Instr → Option VIdx
  | .nop => none
  | .init va _ _ => some va
  | .unfix va => some va
  | .copy va _ => some va
  | .testBit _ _ => none
  | .setBit va _ => some va
  | .unsetBit va _ => some va
  | .toggleBit va _ => some va
  | .count _ => none
  | .rdlen _ => none
  | .rdfix _ => none
  | .fill va _ => some va
  | .notV va => some va
  | .andV va _ => some va
  | .orV va _ => some va
  | .xorV va _ => some va
  | .eqV _ _ => none
  | .rdw _ _ => none
  | .wrw va _ _ => some va

end Sys2Proof
end

