-- ==== Sys2Proof/WellFormed.lean ====
section
/-! DEFINITION. Which decoded commands name vector registers that exist (spec/30_encoding.md R67, R71). -/

namespace Sys2Proof

/-- The vector register `a` exists: `a < NV` (R6, R71). -/
def vectorExists (c : Config) (a : VIdx) : Bool := decide (a.toNat < c.nv)

/-- Every vector the command names exists (the last two checks of R67's decode). -/
def Instr.wf (c : Config) (i : Instr) : Bool := i.vectors.all (vectorExists c)

end Sys2Proof
end

