-- ==== Sys2Proof/Decode.lean ====
section
/-! DEFINITION. The opcode table (spec/30_encoding.md R68), the decoder of command words (R67, R69, R70), and after it the
encoder, written from the same format (R63 to R66). The checks of `VA` and `VB` against `NV`, the last of R67, depend on the
implementation's parameters: every meaning makes them first (`State.onVector`). -/

namespace Sys2Proof

/-- The rows of the opcode table, in its order. -/
inductive Op where
  | nop | init | unfix | copy
  | test | set | unset | toggle | count | rdlen | rdfix
  | fill | not | and | or | xor
  | eq | rdw | wrw
deriving DecidableEq, Repr

/-- One row of R68: the word matches the row when `CMD & mask = match`. -/
structure Row where
  op : Op
  mask : BitVec 32
  pat : BitVec 32
deriving DecidableEq, Repr

/-- Why a command word is no command (each is `ILLEGAL`, R201). -/
inductive DecodeError where
  /-- an `OP` value no row has (R69) -/
  | reservedOpcode
  /-- a listed `OP` with a non-zero bit where its row fixes 0 (R70) -/
  | reservedBits
  /-- `INIT` with fill mode `11` (R65, R69) -/
  | reservedFillMode
deriving DecidableEq, Repr

/-- The opcode table of R68. -/
def opcodeTable : List Row :=
  [⟨.nop, 0xFFFFFFFF, 0x00000000⟩, ⟨.init, 0xFF0FFFF8, 0x01000000⟩, ⟨.unfix, 0xFF0FFFFF, 0x02000000⟩,
   ⟨.copy, 0xFF00FFFF, 0x03000000⟩, ⟨.test, 0xFF0FFFFF, 0x08000000⟩, ⟨.set, 0xFF0FFFFF, 0x09000000⟩,
   ⟨.unset, 0xFF0FFFFF, 0x0A000000⟩, ⟨.toggle, 0xFF0FFFFF, 0x0B000000⟩, ⟨.count, 0xFF0FFFFF, 0x0C000000⟩,
   ⟨.rdlen, 0xFF0FFFFF, 0x0D000000⟩] ++
  [⟨.rdfix, 0xFF0FFFFF, 0x0E000000⟩, ⟨.fill, 0xFF0FFF00, 0x10000000⟩, ⟨.not, 0xFF0FFFFF, 0x11000000⟩,
   ⟨.and, 0xFF00FFFF, 0x12000000⟩, ⟨.or, 0xFF00FFFF, 0x13000000⟩, ⟨.xor, 0xFF00FFFF, 0x14000000⟩,
   ⟨.eq, 0xFF00FFFF, 0x18000000⟩, ⟨.rdw, 0xFF0FFFFF, 0x20000000⟩, ⟨.wrw, 0xFF0FFFFF, 0x21000000⟩]

/-- `(CMD & row.mask) = row.match` (R67). -/
def Row.hits (r : Row) (w : BitVec 32) : Bool := w &&& r.mask == r.pat

/-- The fields of a command word (R63). -/
def fieldOP (w : BitVec 32) : BitVec 8 := w.extractLsb' 24 8
def fieldVA (w : BitVec 32) : VIdx := w.extractLsb' 20 4
def fieldVB (w : BitVec 32) : VIdx := w.extractLsb' 16 4
def fieldRSV (w : BitVec 32) : BitVec 8 := w.extractLsb' 8 8
def fieldIMM (w : BitVec 32) : BitVec 8 := w.extractLsb' 0 8

/-- `IMM[2:1]` as a fill mode; `11` is none (R65). -/
def fillModeOf (imm : BitVec 8) : Option FillMode :=
  match (imm.extractLsb' 1 2).toNat with
  | 0 => some .absent
  | 1 => some .zeros
  | 2 => some .ones
  | _ => none

/-- The command of a matching row with its operands assembled (R64, R65). -/
def Op.assemble (o : Op) (c : Command) : Except DecodeError Instr :=
  match o with
  | .nop => .ok .nop
  | .init =>
    match fillModeOf (fieldIMM c.cmd) with
    | some fm => .ok (.init (fieldVA c.cmd) (if (fieldIMM c.cmd).getLsbD 0 then some c.opnd else none) fm)
    | none => .error .reservedFillMode
  | .unfix => .ok (.unfix (fieldVA c.cmd))
  | .copy => .ok (.copy (fieldVA c.cmd) (fieldVB c.cmd))
  | .test => .ok (.testBit (fieldVA c.cmd) c.opnd)
  | .set => .ok (.setBit (fieldVA c.cmd) c.opnd)
  | .unset => .ok (.unsetBit (fieldVA c.cmd) c.opnd)
  | .toggle => .ok (.toggleBit (fieldVA c.cmd) c.opnd)
  | .count => .ok (.count (fieldVA c.cmd))
  | .rdlen => .ok (.rdlen (fieldVA c.cmd))
  | .rdfix => .ok (.rdfix (fieldVA c.cmd))
  | .fill => .ok (.fill (fieldVA c.cmd) (fieldIMM c.cmd))
  | .not => .ok (.notV (fieldVA c.cmd))
  | .and => .ok (.andV (fieldVA c.cmd) (fieldVB c.cmd))
  | .or => .ok (.orV (fieldVA c.cmd) (fieldVB c.cmd))
  | .xor => .ok (.xorV (fieldVA c.cmd) (fieldVB c.cmd))
  | .eq => .ok (.eqV (fieldVA c.cmd) (fieldVB c.cmd))
  | .rdw => .ok (.rdw (fieldVA c.cmd) c.opnd)
  | .wrw => .ok (.wrw (fieldVA c.cmd) c.opnd c.data)

/-- R67's decode up to the checks against `NV`: the row that matches, then the fill mode. -/
def decode (c : Command) : Except DecodeError Instr :=
  match opcodeTable.find? (fun r => r.hits c.cmd) with
  | some r => r.op.assemble c
  | none =>
    .error (if opcodeTable.any (fun r => fieldOP r.pat == fieldOP c.cmd) then .reservedBits else .reservedOpcode)

/-- A command laid out as one number: `CMD` in bits 31..0, `OPND` in 95..32, `DATA` in 127..96
(DESIGN CHOICE, notes/assumptions/10.md: the three arrive side by side, R73). -/
def Command.ofBits (w : Nat) : Command :=
  ⟨BitVec.ofNat 32 w, BitVec.ofNat 64 (w / 2 ^ 32), BitVec.ofNat 32 (w / 2 ^ 96)⟩

/-- The instruction the decoder reads from the low `nbits` bits of `w`, every higher bit of the command zero. -/
def decodeTableWord (nbits w : Nat) : Option Instr :=
  match decode (Command.ofBits (w % 2 ^ nbits)) with
  | .ok i => some i
  | .error _ => none

/-! ### The encoder -/

/-- The command word of R63 with `RSV = 0`. -/
def commandWord (op : BitVec 8) (va vb : VIdx) (imm : BitVec 8) : BitVec 32 :=
  op ++ va ++ vb ++ 0x00#8 ++ imm

/-- `IMM` of `INIT`: `IMM[0] = SZ`, `IMM[2:1] = FM` (R65). -/
def initImm (sized : Bool) (fm : FillMode) : BitVec 8 :=
  0b00000#5 ++ (match fm with | .absent => 0b00#2 | .zeros => 0b01#2 | .ones => 0b10#2) ++ BitVec.ofBool sized

/-- The triple of a command; an unused `OPND` or `DATA` is assembled as 0 (R74). -/
def encode : Instr → Command
  | .nop => ⟨commandWord 0x00 0 0 0, 0, 0⟩
  | .init va none fm => ⟨commandWord 0x01 va 0 (initImm false fm), 0, 0⟩
  | .init va (some size) fm => ⟨commandWord 0x01 va 0 (initImm true fm), size, 0⟩
  | .unfix va => ⟨commandWord 0x02 va 0 0, 0, 0⟩
  | .copy va vb => ⟨commandWord 0x03 va vb 0, 0, 0⟩
  | .testBit va off => ⟨commandWord 0x08 va 0 0, off, 0⟩
  | .setBit va off => ⟨commandWord 0x09 va 0 0, off, 0⟩
  | .unsetBit va off => ⟨commandWord 0x0A va 0 0, off, 0⟩
  | .toggleBit va off => ⟨commandWord 0x0B va 0 0, off, 0⟩
  | .count va => ⟨commandWord 0x0C va 0 0, 0, 0⟩
  | .rdlen va => ⟨commandWord 0x0D va 0 0, 0, 0⟩
  | .rdfix va => ⟨commandWord 0x0E va 0 0, 0, 0⟩
  | .fill va imm => ⟨commandWord 0x10 va 0 imm, 0, 0⟩
  | .notV va => ⟨commandWord 0x11 va 0 0, 0, 0⟩
  | .andV va vb => ⟨commandWord 0x12 va vb 0, 0, 0⟩
  | .orV va vb => ⟨commandWord 0x13 va vb 0, 0, 0⟩
  | .xorV va vb => ⟨commandWord 0x14 va vb 0, 0, 0⟩
  | .eqV va vb => ⟨commandWord 0x18 va vb 0, 0, 0⟩
  | .rdw va idx => ⟨commandWord 0x20 va 0 0, idx, 0⟩
  | .wrw va idx data => ⟨commandWord 0x21 va 0 0, idx, data⟩

end Sys2Proof
end

