-- ==== Sys2Proof/Machine/Flags.lean ====
section
/-! DEFINITION. The status codes of spec/60_exceptions.md R200. The block has no flags, condition codes or predicates
(spec/10_state.md R32), so there is no flag computation: a command's only report is `STATUS` with `RESULT`. -/

namespace Sys2Proof.Machine

/-- `OK`: the command completed, a clamped no-op included (R200, R204). -/
abbrev statusOK : BitVec 4 := 0#4

/-- `ILLEGAL`: the command word failed decode (R201). -/
abbrev statusILLEGAL : BitVec 4 := 1#4

/-- `GROW`: an extension needed a bucket index at or beyond `NB` (R202). -/
abbrev statusGROW : BitVec 4 := 2#4

/-- `SIZE`: a sized `INIT` asked for more than `NB * 32` bits (R203). -/
abbrev statusSIZE : BitVec 4 := 3#4

end Sys2Proof.Machine
end

