-- ==== Sys2Proof/Machine/State.lean ====
section
/-! DEFINITION. The state of the block (spec/10_state.md R21 to R34, spec/30_encoding.md R60 to R62), the reasons a step can
stop, and the state right after reset (R34, R230). -/

namespace Sys2Proof.Machine

/-- The bucket storage `W[a][*]` of one vector: the words that are not zero, by bucket index, indices strictly rising
(`Store.wf`). An index that is not listed holds `zeros_32`, the reset contents (R26, R34; notes/assumptions/8.md). -/
abbrev Store := List (Nat × Word)

/-- One vector register `V[a]` (R21). -/
structure VReg where
  /-- `W[a][i]` (R26) -/
  buckets : Store
  /-- `LEN[a]`, the bucket count (R23) -/
  len : BitVec 33
  /-- `FIXED[a]` (R24) -/
  fixed : Bool
  /-- `CAP[a]`, the capacity in bits (R25) -/
  cap : BitVec 38
deriving DecidableEq, Repr

/-- The empty unfixed set with zero storage (R34). -/
def VReg.empty : VReg := ⟨[], 0#33, false, 0#38⟩

/-- What one rising edge of `clk` brings: the sampled host inputs (R60), and the block's two unspecified timing choices at
that edge (R62, R232, R240; notes/assumptions/3.md), which nothing constrains. -/
structure Edge where
  /-- `rst` -/
  rst : Bool
  /-- `cmd_valid` -/
  cmdValid : Bool
  /-- `cmd_word`, `cmd_opnd`, `cmd_data` -/
  cmd : Command
  /-- draw: a command in flight (or accepted at this edge) completes in the cycle this edge begins -/
  done : Bool
  /-- draw: `cmd_ready` is 1 in the cycle this edge begins, where R62 lets it be -/
  ready : Bool
deriving DecidableEq, Repr

/-- The state of the block, with what its host will do next. -/
structure State where
  /-- `NV`, `NB`, `HOST_ATTACH`: parameters, which no step writes (R6, R7, R35, R52) -/
  cfg : Config
  /-- `V0` .. `V(NV-1)` (R21) -/
  vregs : List VReg
  /-- `RESULT` (R30) -/
  result : BitVec 64
  /-- `STATUS` (R31) -/
  status : BitVec 4
  /-- the command accepted and not yet completed (R33 (c), R62) -/
  inFlight : Option Command
  /-- `cmd_ready`, while `rst = 0` (R60, R62) -/
  cmdReady : Bool
  /-- `rsp_valid`, while `rst = 0` (R60, R62) -/
  rspValid : Bool
  /-- MODEL: the command the host presented at the last edge without its being accepted, which R236 has it hold -/
  offered : Option Command
  /-- MODEL: the coming rising edges of `clk`, oldest first (notes/assumptions/2.md) -/
  edges : List Edge
  /-- MODEL: how many edges beyond the list have passed; the free draws of Config are applied to it
  (notes/assumptions/4.md) -/
  idleEdges : Nat
deriving DecidableEq, Repr

/-- Nothing raises a fault: the block has no traps (R206), and every command completes with a status (R200). -/
inductive Fault where
deriving DecidableEq, Repr

/-- Why the model gives a step no meaning. -/
inductive Refusal where
  /-- raised by an arm of `exec` whose command has no meaning yet; safe: the model stops where the block goes on -/
  | notModelled (mnemonic : String)
  /-- raised at an edge at which the host withdrew or changed a presented command before its acceptance (R236: "a model
  refuses such a host"); safe -/
  | unstableCommand
  /-- raised at an edge at which the host presents a command while `rst = 1` (spec/93_implementation_defined.md I4:
  `refuse`); safe -/
  | commandDuringReset
deriving DecidableEq, Repr

/-- The reset state of an implementation `c` (R34, R230): every vector empty, unfixed and zero; `RESULT`, `STATUS` zero; no
command in flight, no response. `ready` is `cmd_ready` after the reset, which R232 leaves open. -/
def State.resetOf (c : Config) (ready : Bool) (edges : List Edge) (idleEdges : Nat) : State where
  cfg := c
  vregs := List.replicate c.nv VReg.empty
  result := 0#64
  status := 0#4
  inFlight := none
  cmdReady := ready
  rspValid := false
  offered := none
  edges := edges
  idleEdges := idleEdges

/-- The machine right after reset, its host silent (R34; the values the spec leaves open: notes/assumptions/1.md, 4.md,
5.md, 11.md). -/
def State.reset : State := State.resetOf Config.testVectors false [] 0

end Sys2Proof.Machine
end

