-- ==== Sys2Proof/Machine/Store.lean ====
section
/-! DEFINITION. The named operations over the bucket storage of one vector (spec/10_state.md R26, spec/00_scope.md R12,
R14): reading and writing one bucket, and the loops `for i in [lo, hi)` the commands run over buckets. -/

namespace Sys2Proof.Machine

/-- `W[a][i]`; an index the list does not hold is `zeros_32` (R26). -/
def Store.read : Store → Nat → Word
  | [], _ => zeros32
  | (j, w) :: rest, i => if i = j then w else Store.read rest i

/-- `W[a][i] <- w`, keeping the canonical form: writing `zeros_32` removes the entry. -/
def Store.write : Store → Nat → Word → Store
  | [], i, w => if w = zeros32 then [] else [(i, w)]
  | (j, v) :: rest, i, w =>
    if i < j then (if w = zeros32 then (j, v) :: rest else (i, w) :: (j, v) :: rest)
    else if i = j then (if w = zeros32 then rest else (j, w) :: rest)
    else (j, v) :: Store.write rest i w

/-- `for i in [lo, lo + n): W[a][i] <- f i W[a][i]` (R14). -/
def Store.updateRange (f : Nat → Word → Word) : (lo n : Nat) → Store → Store
  | _, 0, st => st
  | lo, n + 1, st => Store.updateRange f (lo + 1) n (st.write lo (f lo (st.read lo)))

/-- `for i in [lo, hi): W[a][i] <- zeros_32`. -/
def Store.zeroRange (lo hi : Nat) (st : Store) : Store :=
  st.filter fun p => decide (p.1 < lo) || decide (hi ≤ p.1)

/-- The storage whose buckets `[0, n)` hold `w` and whose other buckets are zero. -/
def Store.filled (n : Nat) (w : Word) : Store :=
  if w = zeros32 then [] else (List.range n).map fun i => (i, w)

/-- `for i in [0, n): if W[a][i] != W[b][i]` finds no difference (R160). -/
def Store.sameBelow (x y : Store) : Nat → Bool
  | 0 => true
  | n + 1 => Store.sameBelow x y n && x.read n == y.read n

/-- The canonical form from index `lo` on: indices strictly rising from at least `lo`, no zero word. -/
def Store.wfFrom : Nat → Store → Bool
  | _, [] => true
  | lo, (i, w) :: rest => decide (lo ≤ i) && decide (w ≠ zeros32) && Store.wfFrom (i + 1) rest

/-- The canonical form: two canonical stores that read alike are the same list. -/
def Store.wf (st : Store) : Bool := Store.wfFrom 0 st

end Sys2Proof.Machine
end

