-- ==== Sys2Proof/Machine/Operands.lean ====
section
/-! DEFINITION. Every operand form the commands take: a bit offset decoded to bucket index, bit position and mask
(spec/42_bit_access.md R120), the clamp of a fixed vector (R121, spec/45_word_access.md R181), a size rounded to buckets
(spec/00_scope.md R11), and the fill operands of INIT and FILL (spec/30_encoding.md R65, R66). -/

namespace Sys2Proof.Machine

/-- `idx <- off >> 5`, from all 64 bits of the offset (R120). -/
def bucketIndex (off : Opnd) : Nat := off.toNat >>> 5

/-- `pos <- off & 31` (R120). -/
def bitPosition (off : Opnd) : Nat := off.toNat &&& 31

/-- `mask <- 1 << pos` (R120). -/
def bitMask (pos : Nat) : Word := 1#32 <<< pos

/-- `clamped(a, off)`: `FIXED[a] = 1` and `off >= CAP[a]` (R121). -/
def VReg.clamped (v : VReg) (off : Nat) : Bool := v.fixed && decide (v.cap.toNat ≤ off)

/-- The clamp of a whole bucket: `FIXED[a] = 1` and `i >= CAP[a] div 32` (R181). -/
def VReg.wordClamped (v : VReg) (i : Nat) : Bool := v.fixed && decide (v.cap.toNat / 32 ≤ i)

/-- `ceil32(n)` (R11). -/
def ceil32 (n : Nat) : Nat := (n + 31) / 32 * 32

/-- The word `INIT` puts into every bucket of the new length (R65, R101): a hole is a zero word (R17). -/
def fillModeWord : FillMode → Word
  | .absent => zeros32
  | .zeros => zeros32
  | .ones => ones32

/-- The word `FILL` writes: any non-zero immediate is all ones (R66). -/
def fillWord (imm : BitVec 8) : Word := if imm = 0#8 then zeros32 else ones32

end Sys2Proof.Machine
end

