-- ==== Sys2Proof/Machine/Ops.lean ====
section
/-! DEFINITION. The named operations over vector registers and the response: how a command ends (`finish`, spec/00_scope.md
R13), how it reports ILLEGAL, GROW or SIZE (spec/60_exceptions.md R201 to R203: the block's only "exceptions"; there is no
trap entry and no return, R206, R208), the register file (spec/10_state.md R21), and the extension step
(spec/42_bit_access.md R122). -/

namespace Sys2Proof.Machine

/-- `finish(c, r)`: `STATUS <- c`, `RESULT <- r` (R13). -/
def State.finish (s : State) (c : BitVec 4) (r : BitVec 64) : State := { s with status := c, result := r }

/-- `raise ILLEGAL` = `finish(1, 0)` (R13, R201). -/
def State.raiseIllegal (s : State) : State := s.finish statusILLEGAL 0#64

/-- The `RESULT` of a `GROW`: the bucket count the vector would need (R202); a count that does not fit 64 bits is a free
value (notes/assumptions/20.md). -/
def growResult (needed : Nat) : BitVec 64 :=
  if needed < 2 ^ 64 then BitVec.ofNat 64 needed else Config.growOverflow needed

/-- `raise GROW(r)` = `finish(2, r)` with the bucket count `r` the vector would need (R13, R202). -/
def State.raiseGrow (s : State) (needed : Nat) : State := s.finish statusGROW (growResult needed)

/-- `raise SIZE` = `finish(3, 0)` (R13, R203). -/
def State.raiseSize (s : State) : State := s.finish statusSIZE 0#64

/-- `V[a]`. -/
def State.vec (s : State) (a : VIdx) : VReg := s.vregs.getD a.toNat VReg.empty

/-- `V[a] <- v`. -/
def State.setVec (s : State) (a : VIdx) (v : VReg) : State := { s with vregs := s.vregs.set a.toNat v }

/-- The check of `VA` that ends R67's decode, then the command on `V[VA]`. -/
def State.onVector (s : State) (va : VIdx) (k : VReg → State) : State :=
  if va.toNat < s.cfg.nv then k (s.vec va) else s.raiseIllegal

/-- The checks of `VA` and of a used `VB` that end R67's decode, then the command on the two vectors. -/
def State.onVectors (s : State) (va vb : VIdx) (k : VReg → VReg → State) : State :=
  s.onVector va fun a => s.onVector vb fun b => k a b

/-- `W[a][i]`. -/
def VReg.word (v : VReg) (i : Nat) : Word := v.buckets.read i

/-- `W[a][i] <- w`. -/
def VReg.setWord (v : VReg) (i : Nat) (w : Word) : VReg := { v with buckets := v.buckets.write i w }

/-- `extend(a, idx)` (R122); `none` is `raise GROW(idx + 1)`. -/
def VReg.extend (nb : Nat) (v : VReg) (idx : Nat) : Option VReg :=
  if idx < v.len.toNat then some v
  else if nb ≤ idx then none
  else some { v with buckets := v.buckets.zeroRange v.len.toNat (idx + 1), len := BitVec.ofNat 33 (idx + 1) }

/-- The write datapath of SET, UNSET, TOGGLE and WRW: the clamp before the extension before the write (R205). -/
def State.writeBucket (s : State) (va : VIdx) (clamp : VReg → Bool) (idx : Nat) (f : Word → Word) : State :=
  s.onVector va fun v =>
    if clamp v then s.finish statusOK 0#64
    else
      match v.extend s.cfg.nb idx with
      | none => s.raiseGrow (idx + 1)
      | some v' => (s.setVec va (v'.setWord idx (f (v'.word idx)))).finish statusOK 0#64

/-- The bit commands' use of it: decode the offset (R120), clamp by the offset (R121), combine the bucket with the mask. -/
def State.modifyBit (s : State) (va : VIdx) (off : Opnd) (f : Word → Word → Word) : State :=
  s.writeBucket va (fun v => v.clamped off.toNat) (bucketIndex off) fun w => f w (bitMask (bitPosition off))

/-- `for i in [lo, hi): W[a][i] <- f i W[a][i]`. -/
def VReg.mapWords (v : VReg) (lo hi : Nat) (f : Nat → Word → Word) : VReg :=
  { v with buckets := v.buckets.updateRange f lo (hi - lo) }

/-- The shape of OR and XOR, and of AND's second loop: combine the receiver's buckets in `[0, m)`,
`m = min(LEN[a], LEN[b])`, with the second operand's (R140). -/
def VReg.combine (a b : VReg) (f : Word → Word → Word) : VReg :=
  a.mapWords 0 (min a.len.toNat b.len.toNat) fun i w => f w (b.word i)

/-- `count(a)`: `CAP[a]` if fixed, else `LEN[a] * 32` (R29). -/
def VReg.count (v : VReg) : Nat := if v.fixed then v.cap.toNat else v.len.toNat * 32

/-- Bit `k` of a vector's bit space: `W[a][k >> 5][k & 31]` (R43, R44). -/
def VReg.bit (v : VReg) (k : Nat) : Bool := (v.word (k / 32)).getLsbD (k % 32)

end Sys2Proof.Machine
end

