-- ==== Sys2Proof/Machine/BitAccess.lean ====
section
/-! DEFINITION. TEST, SET, UNSET, TOGGLE, COUNT, RDLEN, RDFIX (spec/42_bit_access.md R123 to R129). -/

namespace Sys2Proof.Machine

/-- The bit `TEST` reads: 0 where clamped or beyond the length (R123). -/
def VReg.testedBit (v : VReg) (off : Opnd) : Bool :=
  if v.clamped off.toNat then false
  else if v.len.toNat ≤ bucketIndex off then false
  else (v.word (bucketIndex off)).getLsbD (bitPosition off)

/-- `TEST vA, #off` (R123). -/
def execTestBit (va : VIdx) (off : Opnd) (s : State) : Host.Outcome State Fault Refusal :=
  .next <| s.onVector va fun v => s.finish statusOK ((BitVec.ofBool (v.testedBit off)).zeroExtend 64)

/-- `SET vA, #off` (R124): `W <- W | mask`. -/
def execSetBit (va : VIdx) (off : Opnd) (s : State) : Host.Outcome State Fault Refusal :=
  .next <| s.modifyBit va off fun w mask => w ||| mask

/-- `UNSET vA, #off` (R125): `W <- W & ~mask`. -/
def execUnsetBit (va : VIdx) (off : Opnd) (s : State) : Host.Outcome State Fault Refusal :=
  .next <| s.modifyBit va off fun w mask => w &&& ~~~mask

/-- `TOGGLE vA, #off` (R126): `W <- W ^ mask`. -/
def execToggleBit (va : VIdx) (off : Opnd) (s : State) : Host.Outcome State Fault Refusal :=
  .next <| s.modifyBit va off fun w mask => w ^^^ mask

/-- `COUNT vA` (R127). -/
def execCount (va : VIdx) (s : State) : Host.Outcome State Fault Refusal :=
  .next <| s.onVector va fun v => s.finish statusOK (BitVec.ofNat 64 v.count)

/-- `RDLEN vA` (R128). -/
def execRdlen (va : VIdx) (s : State) : Host.Outcome State Fault Refusal :=
  .next <| s.onVector va fun v => s.finish statusOK (v.len.zeroExtend 64)

/-- `RDFIX vA` (R129). -/
def execRdfix (va : VIdx) (s : State) : Host.Outcome State Fault Refusal :=
  .next <| s.onVector va fun v => s.finish statusOK ((BitVec.ofBool v.fixed).zeroExtend 64)

end Sys2Proof.Machine
end

