-- ==== Sys2Proof/Machine/CompareCopy.lean ====
section
/-! DEFINITION. EQ and COPY (spec/44_compare_copy.md R160, R161). -/

namespace Sys2Proof.Machine

/-- The verdict of `EQ`: equal lengths, and equal words below them; `FIXED` and `CAP` are not compared (R160). -/
def VReg.sameBits (a b : VReg) : Bool := a.len == b.len && a.buckets.sameBelow b.buckets a.len.toNat

/-- `EQ vA, vB` (R160). -/
def execEqV (va vb : VIdx) (s : State) : Host.Outcome State Fault Refusal :=
  .next <| s.onVectors va vb fun a b => s.finish statusOK ((BitVec.ofBool (a.sameBits b)).zeroExtend 64)

/-- `COPY vA, vB` (R161): fixed flag, capacity, length and every bucket. -/
def execCopy (va vb : VIdx) (s : State) : Host.Outcome State Fault Refusal :=
  .next <| s.onVectors va vb fun _ b => (s.setVec va b).finish statusOK 0#64

end Sys2Proof.Machine
end

