-- ==== Sys2Proof/Machine/Construction.lean ====
section
/-! DEFINITION. NOP, INIT, UNFIX (spec/41_construction.md R100 to R102). -/

namespace Sys2Proof.Machine

/-- `NOP` (R100). -/
def execNop (s : State) : Host.Outcome State Fault Refusal := .next (s.finish statusOK 0#64)

/-- The vector a sized `INIT` of `size <= NB * 32` bits creates (R101, `SZ = 1`). -/
def VReg.sized (size : Nat) (fm : FillMode) : VReg where
  buckets := Store.filled (ceil32 size / 32) (fillModeWord fm)
  len := BitVec.ofNat 33 (ceil32 size / 32)
  fixed := true
  cap := BitVec.ofNat 38 (ceil32 size)

/-- `INIT vA[, #size][, fillN]` (R101): the unsized form has no buckets to fill. -/
def execInit (va : VIdx) (size : Option Opnd) (fm : FillMode) (s : State) : Host.Outcome State Fault Refusal :=
  .next <| s.onVector va fun _ =>
    match size with
    | none => (s.setVec va VReg.empty).finish statusOK 0#64
    | some n =>
      if s.cfg.nb * 32 < n.toNat then s.raiseSize
      else (s.setVec va (VReg.sized n.toNat fm)).finish statusOK 0#64

/-- `UNFIX vA` (R102). -/
def execUnfix (va : VIdx) (s : State) : Host.Outcome State Fault Refusal :=
  .next <| s.onVector va fun v => (s.setVec va { v with fixed := false, cap := 0#38 }).finish statusOK 0#64

end Sys2Proof.Machine
end

