-- ==== Sys2Proof/Machine/WordAccess.lean ====
section
/-! DEFINITION. RDW and WRW (spec/45_word_access.md R180, R181). -/

namespace Sys2Proof.Machine

/-- `RDW vA, #idx` (R180): beyond the length, the all-zero word. -/
def execRdw (va : VIdx) (idx : Opnd) (s : State) : Host.Outcome State Fault Refusal :=
  .next <| s.onVector va fun v =>
    s.finish statusOK (if v.len.toNat ≤ idx.toNat then 0#64 else (v.word idx.toNat).zeroExtend 64)

/-- `WRW vA, #idx, #data` (R181). -/
def execWrw (va : VIdx) (idx : Opnd) (data : Word) (s : State) : Host.Outcome State Fault Refusal :=
  .next <| s.writeBucket va (fun v => v.wordClamped idx.toNat) idx.toNat fun _ => data

end Sys2Proof.Machine
end

