-- ==== Sys2Proof/Machine/WordParallel.lean ====
section
/-! DEFINITION. FILL, NOT, AND, OR, XOR (spec/43_word_parallel.md R140 to R146). -/

namespace Sys2Proof.Machine

/-- `FILL vA, #imm8` (R141): every existing bucket. -/
def execFill (va : VIdx) (imm : BitVec 8) (s : State) : Host.Outcome State Fault Refusal :=
  .next <| s.onVector va fun v =>
    (s.setVec va (v.mapWords 0 v.len.toNat fun _ _ => fillWord imm)).finish statusOK 0#64

/-- `NOT vA` (R142): every existing bucket. -/
def execNotV (va : VIdx) (s : State) : Host.Outcome State Fault Refusal :=
  .next <| s.onVector va fun v => (s.setVec va (v.mapWords 0 v.len.toNat fun _ w => ~~~w)).finish statusOK 0#64

/-- `for j in [0, n)`: the per-bit unset of one tail bucket `i`, each bit only where it is not clamped (R143). -/
def VReg.unsetBits (v : VReg) (i : Nat) : Nat → Word → Word
  | 0, w => w
  | n + 1, w =>
    let w' := v.unsetBits i n w
    if v.clamped (32 * i + n) then w' else w' &&& ~~~(bitMask n)

/-- The receiver after AND: its tail `[m, LEN[a])` cleared bit by bit, then the overlap `[0, m)` combined (R143, R146). -/
def VReg.andWith (a b : VReg) : VReg :=
  (a.mapWords (min a.len.toNat b.len.toNat) a.len.toNat fun i w => a.unsetBits i 32 w).combine b fun x y => x &&& y

/-- `AND vA, vB` (R143). -/
def execAndV (va vb : VIdx) (s : State) : Host.Outcome State Fault Refusal :=
  .next <| s.onVectors va vb fun a b => (s.setVec va (a.andWith b)).finish statusOK 0#64

/-- `OR vA, vB` (R144): the tail is left untouched (R146). -/
def execOrV (va vb : VIdx) (s : State) : Host.Outcome State Fault Refusal :=
  .next <| s.onVectors va vb fun a b => (s.setVec va (a.combine b fun x y => x ||| y)).finish statusOK 0#64

/-- `XOR vA, vB` (R145): the tail is left untouched (R146). -/
def execXorV (va vb : VIdx) (s : State) : Host.Outcome State Fault Refusal :=
  .next <| s.onVectors va vb fun a b => (s.setVec va (a.combine b fun x y => x ^^^ y)).finish statusOK 0#64

end Sys2Proof.Machine
end

