-- ==== Sys2Proof/Machine/Dispatch.lean ====
section
/-! DEFINITION. One arm per command (spec/30_encoding.md R68). -/

namespace Sys2Proof.Machine

/-- The effect of a decoded command at its completion (R50, R67: "execute row's rule with VA, VB, IMM, OPND, DATA"). -/
def exec (i : Instr) (s : State) : Host.Outcome State Fault Refusal :=
  match i with
  -- construction and control (spec/41_construction.md, spec/44_compare_copy.md)
  | .nop => Sys2Proof.Machine.execNop s
  | .init va size fm => Sys2Proof.Machine.execInit va size fm s
  | .unfix va => Sys2Proof.Machine.execUnfix va s
  | .copy va vb => Sys2Proof.Machine.execCopy va vb s
  -- bit access (spec/42_bit_access.md)
  | .testBit va off => Sys2Proof.Machine.execTestBit va off s
  | .setBit va off => Sys2Proof.Machine.execSetBit va off s
  | .unsetBit va off => Sys2Proof.Machine.execUnsetBit va off s
  | .toggleBit va off => Sys2Proof.Machine.execToggleBit va off s
  | .count va => Sys2Proof.Machine.execCount va s
  | .rdlen va => Sys2Proof.Machine.execRdlen va s
  | .rdfix va => Sys2Proof.Machine.execRdfix va s
  -- word-parallel engines (spec/43_word_parallel.md)
  | .fill va imm => Sys2Proof.Machine.execFill va imm s
  | .notV va => Sys2Proof.Machine.execNotV va s
  | .andV va vb => Sys2Proof.Machine.execAndV va vb s
  | .orV va vb => Sys2Proof.Machine.execOrV va vb s
  | .xorV va vb => Sys2Proof.Machine.execXorV va vb s
  -- comparison (spec/44_compare_copy.md)
  | .eqV va vb => Sys2Proof.Machine.execEqV va vb s
  -- word access (spec/45_word_access.md)
  | .rdw va idx => Sys2Proof.Machine.execRdw va idx s
  | .wrw va idx data => Sys2Proof.Machine.execWrw va idx data s

end Sys2Proof.Machine
end

