-- ==== Sys2Proof/Machine/Interface.lean ====
section
/-! DEFINITION. The command port (spec/30_encoding.md R60 to R62, spec/70_reset_and_hazards.md R230 to R236): what one rising
edge of `clk` does, and the output pins between two edges. -/

namespace Sys2Proof.Machine

/-- The edge that comes next: the first of the list, or, where the list has ended, one at which the host presents nothing and
the block's draws are the free values of Config (notes/assumptions/4.md). -/
def State.nextEdge (s : State) : Edge :=
  match s.edges with
  | e :: _ => e
  | [] => ⟨false, false, ⟨0#32, 0#64, 0#32⟩, Config.idleDone s.idleEdges, Config.idleReady s.idleEdges⟩

/-- The state with that edge taken off what is to come. -/
def State.dropEdge (s : State) : State :=
  match s.edges with
  | _ :: rest => { s with edges := rest }
  | [] => { s with idleEdges := s.idleEdges + 1 }

/-- The effect of a command at its completion: R67's decode, `raise ILLEGAL` where it fails (R69, R70), else the command's
rule. -/
def perform (c : Command) (s : State) : Host.Outcome State Fault Refusal :=
  match decode c with
  | .ok i => exec i s
  | .error _ => .next s.raiseIllegal

/-- The port in a completion cycle: a response, nothing in flight, not ready (R62). -/
def State.respond (s : State) : State := { s with inFlight := none, cmdReady := false, rspValid := true }

/-- Completion: all the command's effects at once, with the response (R50, R62). -/
def complete (c : Command) (s : State) : Host.Outcome State Fault Refusal :=
  match perform c s with
  | .next t => .next t.respond
  | .fault r => .fault r
  | .refused r => .refused r

/-- The port in a cycle in which `c` is in flight and does not complete (R62). -/
def State.stayBusy (s : State) (c : Command) : State :=
  { s with inFlight := some c, cmdReady := false, rspValid := false }

/-- The port in a cycle with no command in flight; `ready` is the draw (R62, R232). -/
def State.idle (s : State) (ready : Bool) : State :=
  { s with inFlight := none, cmdReady := ready, rspValid := false }

/-- The host withdraws or changes the command it presented without its being accepted (R236). -/
def State.breaksHold (s : State) (e : Edge) : Bool :=
  match s.offered with
  | none => false
  | some c => !(e.cmdValid && decide (e.cmd = c))

/-- A command is accepted at this edge: `rst = 0`, `cmd_valid = 1`, `cmd_ready = 1`, none in flight (R62). -/
def State.accepts (s : State) (e : Edge) : Bool := !e.rst && e.cmdValid && s.cmdReady && s.inFlight.isNone

/-- The command in flight once this edge's acceptance has happened (R62). -/
def State.pending (s : State) (e : Edge) : Option Command :=
  if s.accepts e then some e.cmd else s.inFlight

/-- The command the host now has to hold: presented and not accepted (R236). -/
def State.holding (s : State) (e : Edge) : Option Command :=
  if e.cmdValid && !s.accepts e then some e.cmd else none

/-- One rising edge of `clk`. Reset wins over everything (R230, R231); a host that breaks the handshake is refused (R236, I4);
else the pending command completes or stays in flight, as drawn, or the port is idle. -/
def clockEdge (s : State) : Host.Outcome State Fault Refusal :=
  let e := s.nextEdge
  let s' := s.dropEdge
  if e.rst then
    if e.cmdValid then .refused .commandDuringReset
    else .next (State.resetOf s'.cfg e.ready s'.edges s'.idleEdges)
  else if s.breaksHold e then .refused .unstableCommand
  else
    let held := { s' with offered := s.holding e }
    match s.pending e with
    | some c => if e.done then complete c held else .next (held.stayBusy c)
    | none => .next (held.idle e.ready)

/-! ### The output pins (R60, R62; both are 0 while `rst = 1`, R230) -/

/-- `cmd_ready`. -/
def State.cmdReadyPin (s : State) : Bool := s.cmdReady && !s.nextEdge.rst

/-- `rsp_valid`. -/
def State.rspValidPin (s : State) : Bool := s.rspValid && !s.nextEdge.rst

/-- `rsp_status`: the `STATUS` register at all times. -/
def State.rspStatusPin (s : State) : BitVec 4 := s.status

/-- `rsp_result`: the `RESULT` register at all times. -/
def State.rspResultPin (s : State) : BitVec 64 := s.result

/-- `s` with the host presenting `c` at the next edge, at which the block is ready and the command completes. -/
def State.present (s : State) (c : Command) : State :=
  { s with
    edges := ⟨false, true, c, true, false⟩ :: s.edges
    cmdReady := true
    inFlight := none
    offered := none }

end Sys2Proof.Machine
end

