-- ==== Sys2Proof/Machine/Step.lean ====
section
/-! DEFINITION. One step of the machine: one rising edge of `clk` (spec/30_encoding.md R60, R62; notes/assumptions/2.md). -/

namespace Sys2Proof.Machine

/-- One rising edge of `clk`. -/
def step (s : State) : Host.Outcome State Fault Refusal := clockEdge s

/-- `s` with the command whose bits are `w` (above `nbits`: zero) presented at the next edge, accepted and completed there
(notes/assumptions/11.md). -/
def State.withFetchWord (s : State) (nbits w : Nat) : State := s.present (Command.ofBits (w % 2 ^ nbits))

end Sys2Proof.Machine
end

