-- ==== Sys2Proof/Machine/HostSequences.lean ====
section
/-! DEFINITION. Sequences of commands a host issues: the assembler's pseudo-instructions (spec/30_encoding.md R76) and the
wrapper's conversions that are pure command sequences (spec/45_word_access.md R182, spec/20_memory.md R45 to R47). The host
collects one response per command (R62). Two choices of the model where the spec leaves the wrapper free (DESIGN CHOICE): it goes
on after a `GROW` or `SIZE` (notes/assumptions/23.md), and it reduces a length or index modulo `2^64` (notes/assumptions/24.md). -/

namespace Sys2Proof.Machine

/-- The pseudo-instructions for the pure operator forms (R76). -/
inductive Pseudo where
  | andp (vd va vb : VIdx)
  | orp (vd va vb : VIdx)
  | xorp (vd va vb : VIdx)
  | notp (vd va : VIdx)
deriving DecidableEq, Repr

/-- The two-operand forms' expansion; the assembler refuses `vD = vB` with `vD ≠ vA` (R76, R239). -/
def expandBinary (op : VIdx → VIdx → Instr) (vd va vb : VIdx) : Option (List Instr) :=
  if vd = vb ∧ vd ≠ va then none else some [.copy vd va, op vd vb]

/-- The expansion into two commands; `none` where the assembler refuses (R76). -/
def Pseudo.expand : Pseudo → Option (List Instr)
  | .andp vd va vb => expandBinary .andV vd va vb
  | .orp vd va vb => expandBinary .orV vd va vb
  | .xorp vd va vb => expandBinary .xorV vd va vb
  | .notp vd va => some [.copy vd va, .notV vd]

/-- The state after the commands, issued one after the other (R54), every one of them, whatever status the earlier ones report
(DESIGN CHOICE, notes/assumptions/23.md: D10, R238 and I13 leave the reaction to the wrapper). -/
def issue : List Instr → State → Host.Outcome State Fault Refusal
  | [], s => .next s
  | i :: rest, s =>
    match exec i s with
    | .next t => issue rest t
    | .fault r => .fault r
    | .refused r => .refused r

/-- The `RESULT` of each command, issued one after the other whatever their status (R62, R237; notes/assumptions/23.md). -/
def responses : List Instr → State → List (BitVec 64)
  | [], _ => []
  | i :: rest, s =>
    match exec i s with
    | .next t => t.result :: responses rest t
    | .fault _ => []
    | .refused _ => []

/-- `toBuckets()`: RDLEN for the count, then RDW of each bucket (R182 (a)). -/
def toBuckets (va : VIdx) (s : State) : List Word :=
  let n := ((responses [.rdlen va] s).headD 0#64).toNat
  (responses ((List.range n).map fun i => .rdw va (BitVec.ofNat 64 i)) s).map fun r => r.setWidth 32

/-- `WRW vA, #i, #seq[i]` for the words of `seq` from bucket `i` on (R182 (b)); the index is taken modulo
`2^64` (DESIGN CHOICE, notes/assumptions/24.md). -/
def writeBuckets (va : VIdx) : Nat → List Word → List Instr
  | _, [] => []
  | i, w :: ws => .wrw va (BitVec.ofNat 64 i) w :: writeBuckets va (i + 1) ws

/-- `fromBuckets(seq)`: an unsized INIT, then the words (R182 (b)), those beyond `NB` too, each of which reports `GROW` (DESIGN
CHOICE, notes/assumptions/23.md). -/
def fromBuckets (va : VIdx) (ws : List Word) : List Instr := .init va none .absent :: writeBuckets va 0 ws

/-- `toArray()`: COUNT, then TEST of each offset below it (R182 (c), R47). -/
def toArray (va : VIdx) (s : State) : List Bool :=
  let c := ((responses [.count va] s).headD 0#64).toNat
  (responses ((List.range c).map fun i => .testBit va (BitVec.ofNat 64 i)) s).map fun r => r != 0#64

/-- `SET vA, #i` at each true element, from offset `i` on (R182 (d)); the offset is taken modulo `2^64` (DESIGN CHOICE,
notes/assumptions/24.md). -/
def setTrue (va : VIdx) : Nat → List Bool → List Instr
  | _, [] => []
  | i, b :: bs => if b then .setBit va (BitVec.ofNat 64 i) :: setTrue va (i + 1) bs else setTrue va (i + 1) bs

/-- `fromArray(arr)`: INIT sized by the length, no fill, then SET at each true element (R182 (d), R47); the length is taken
modulo `2^64` (DESIGN CHOICE, notes/assumptions/24.md), and after a `SIZE` the SETs fall on the vector as it was (DESIGN CHOICE,
notes/assumptions/23.md). -/
def fromArray (va : VIdx) (bs : List Bool) : List Instr :=
  .init va (some (BitVec.ofNat 64 bs.length)) .absent :: setTrue va 0 bs

/-- `toString()`: character `i` is `1` where bit `i` is set, else `0` (R45). -/
def toBinaryString (va : VIdx) (s : State) : List Char := (toArray va s).map fun b => if b then '1' else '0'

/-- `fromString(s)`: as `fromArray`, a set bit for each character `1` (R45, R182 (d)). -/
def fromBinaryString (va : VIdx) (cs : List Char) : List Instr := fromArray va (cs.map fun c => c == '1')

/-- One bucket as 8 lowercase hex digits, most significant first (R46). -/
def hexDigits (w : Word) : List Char := (List.range 8).map fun k => Nat.digitChar (w.toNat >>> (28 - 4 * k) % 16)

/-- `toHex()`: the buckets in index order, 8 digits each (R46, R182 (e)). -/
def toHex (va : VIdx) (s : State) : List Char := (toBuckets va s).flatMap hexDigits

end Sys2Proof.Machine
end

