-- ==== Sys2Proof/Machine/Assembler.lean ====
section
/-! DEFINITION. The spec's assembler (spec/30_encoding.md R74 to R76): one command per line, a mnemonic, then operands
separated by commas. It refuses (`none`) what R74 gives no form: an unknown mnemonic, another number of operands, a vector
name other than `v0` .. `v15`, a literal that its field does not hold. Where R74 says nothing of the text, the model chooses
(DESIGN CHOICE, notes/assumptions/13.md): spaces before the mnemonic and around an operand do not matter, one inside an operand
makes it no operand; hexadecimal digits are of either case; a literal may have leading zeros, a vector name may not. -/

namespace Sys2Proof.Machine

/-- An operand as written: `vN`, `#n`, or the trailing `fill0` / `fill1` of `INIT` (R74). -/
inductive AsmOperand where
  | vec (a : VIdx)
  | lit (n : Nat)
  | fill (fm : FillMode)
deriving DecidableEq, Repr

/-- A digit of the base, either case (DESIGN CHOICE, notes/assumptions/13.md). -/
def digitValue (base : Nat) (c : Char) : Option Nat :=
  let n := c.toNat
  let d := if 48 ≤ n ∧ n ≤ 57 then n - 48 else if 97 ≤ n ∧ n ≤ 102 then n - 87 else if 65 ≤ n ∧ n ≤ 70 then n - 55 else base
  if d < base then some d else none

/-- The digits that follow, on top of the value so far. -/
def digitsFrom (base : Nat) : Nat → List Char → Option Nat
  | acc, [] => some acc
  | acc, c :: cs => (digitValue base c).bind fun d => digitsFrom base (acc * base + d) cs

/-- A number: at least one digit. -/
def numeral (base : Nat) : List Char → Option Nat
  | [] => none
  | c :: cs => digitsFrom base 0 (c :: cs)

/-- An unsigned literal, decimal or hexadecimal with `0x` (R74); leading zeros do not matter (DESIGN CHOICE,
notes/assumptions/13.md). -/
def literal : List Char → Option Nat
  | '0' :: 'x' :: cs => numeral 16 cs
  | cs => numeral 10 cs

/-- The number of a vector name: `0` .. `15`, without leading zeros, which R74 does not write (DESIGN CHOICE,
notes/assumptions/13.md). -/
def vectorNumber : List Char → Option VIdx
  | '0' :: _ :: _ => none
  | cs => (numeral 10 cs).bind fun n => if n < 16 then some (BitVec.ofNat 4 n) else none

/-- The operand without the spaces around it; one inside stays, and no operand has one (DESIGN CHOICE,
notes/assumptions/13.md). -/
def trimSpaces (cs : List Char) : List Char :=
  ((cs.dropWhile fun c => c = ' ').reverse.dropWhile fun c => c = ' ').reverse

/-- One operand, without spaces around it (R74). -/
def asmOperand : List Char → Option AsmOperand
  | 'v' :: cs => (vectorNumber cs).map .vec
  | '#' :: cs => (literal cs).map .lit
  | cs => if cs = "fill0".toList then some (.fill .zeros) else if cs = "fill1".toList then some (.fill .ones) else none

/-- The pieces between the separators; always at least one. -/
def splitAtChar (sep : Char) : List Char → List (List Char)
  | [] => [[]]
  | c :: cs =>
    match splitAtChar sep cs with
    | [] => [[c]]
    | p :: ps => if c = sep then [] :: p :: ps else (c :: p) :: ps

/-- Every operand, or nothing where one is no operand. -/
def asmOperands : List (List Char) → Option (List AsmOperand)
  | [] => some []
  | p :: ps => (asmOperand (trimSpaces p)).bind fun o => (asmOperands ps).map fun os => o :: os

/-- The entry of a mnemonic. -/
def byMnemonic {α : Type} (m : List Char) : List (String × α) → Option α
  | [] => none
  | (name, x) :: rest => if m = name.toList then some x else byMnemonic m rest

/-- A literal that `OPND` holds (R9). -/
def asOpnd (n : Nat) : Option Opnd := if n < 2 ^ 64 then some (BitVec.ofNat 64 n) else none

/-- The forms with one vector (R74, R75). -/
def formsV (a : VIdx) : List (String × Instr) :=
  [("INIT", .init a none .absent), ("NEW", .new a), ("UNFIX", .unfix a), ("COUNT", .count a), ("RDLEN", .rdlen a),
   ("RDFIX", .rdfix a), ("NOT", .notV a), ("SETALL", .setAll a), ("CLEARALL", .clearAll a)]

/-- The forms with a vector and a literal in `OPND` (R74, R75). -/
def formsVN (a : VIdx) (n : Opnd) : List (String × Instr) :=
  [("INIT", .init a (some n) .absent), ("TEST", .testBit a n), ("SET", .setBit a n), ("UNSET", .unsetBit a n),
   ("CLR", .clr a n), ("TOGGLE", .toggleBit a n), ("RDW", .rdw a n)]

/-- The forms with two vectors (R74, R75). -/
def formsVV (a b : VIdx) : List (String × Instr) :=
  [("COPY", .copy a b), ("CLONE", .clone a b), ("AND", .andV a b), ("OR", .orV a b), ("XOR", .xorV a b), ("EQ", .eqV a b)]

/-- The forms with three vectors: the pseudo-instructions (R76). -/
def formsVVV (d a b : VIdx) : List (String × Pseudo) :=
  [("ANDP", .andp d a b), ("ORP", .orp d a b), ("XORP", .xorp d a b)]

/-- The commands one line stands for: one, or the two of a pseudo-instruction (R74 to R76). -/
def assembleForm (m : List Char) : List AsmOperand → Option (List Instr)
  | [] => if m = "NOP".toList then some [.nop] else none
  | [.vec a] => (byMnemonic m (formsV a)).map fun i => [i]
  | [.vec a, .fill fm] => if m = "INIT".toList then some [.init a none fm] else none
  | [.vec a, .lit n] =>
    if m = "FILL".toList then (if n < 2 ^ 8 then some [.fill a (BitVec.ofNat 8 n)] else none)
    else (asOpnd n).bind fun o => (byMnemonic m (formsVN a o)).map fun i => [i]
  | [.vec a, .lit n, .fill fm] =>
    if m = "INIT".toList then (asOpnd n).map fun o => [.init a (some o) fm] else none
  | [.vec a, .lit n, .lit d] =>
    if m = "WRW".toList ∧ d < 2 ^ 32 then (asOpnd n).map fun o => [.wrw a o (BitVec.ofNat 32 d)] else none
  | [.vec a, .vec b] =>
    if m = "NOTP".toList then (Pseudo.notp a b).expand else (byMnemonic m (formsVV a b)).map fun i => [i]
  | [.vec d, .vec a, .vec b] => (byMnemonic m (formsVVV d a b)).bind Pseudo.expand
  | _ => none

/-- One line of text (R74); spaces before the mnemonic and at the end do not matter (DESIGN CHOICE,
notes/assumptions/13.md). -/
def assembleLine (line : List Char) : Option (List Instr) :=
  let text := line.dropWhile fun c => c = ' '
  let m := text.takeWhile fun c => c ≠ ' '
  let rest := (text.dropWhile fun c => c ≠ ' ').dropWhile fun c => c = ' '
  if rest = [] then assembleForm m [] else (asmOperands (splitAtChar ',' rest)).bind (assembleForm m)

/-- A program: one command per line (R74), the host's sequence of commands (R77). -/
def assemble : List (List Char) → Option (List Instr)
  | [] => some []
  | l :: ls => (assembleLine l).bind fun is => (assemble ls).map fun rest => is ++ rest

end Sys2Proof.Machine
end

