-- ==== Sys2Proof/Safety.lean ====
section
/-! DEFINITION. What counts as a safe state and a well-behaved host, and the words the statements use for what a command
leaves alone (spec/10_state.md R26 to R28, spec/70_reset_and_hazards.md R236). -/

namespace Sys2Proof.Machine

/-- The invariants of one vector register of `nb` buckets (R26, R27, R28), and the canonical form of its storage. -/
structure VReg.Wf (nb : Nat) (v : VReg) : Prop where
  len_le : v.len.toNat ≤ nb
  fixed_cap : v.fixed = true → v.cap.toNat = v.len.toNat * 32
  unfixed_cap : v.fixed = false → v.cap = 0#38
  cap_le : v.cap.toNat ≤ nb * 32
  cap_mod : v.cap.toNat % 32 = 0
  canonical : v.buckets.wf = true
  zero_beyond : ∀ i, v.len.toNat ≤ i → v.word i = 0#32

/-- The invariant of the machine: `NV` vector registers, each well formed; a status of R200; no readiness while a command is
in flight or completes (R62). -/
structure State.Wf (s : State) : Prop where
  vregs_length : s.vregs.length = s.cfg.nv
  vectors : ∀ a : VIdx, a.toNat < s.cfg.nv → (s.vec a).Wf s.cfg.nb
  status_le : s.status.toNat ≤ 3
  busy : ∀ c, s.inFlight = some c → s.cmdReady = false ∧ s.rspValid = false
  responding : s.rspValid = true → s.cmdReady = false

/-- The host keeps the handshake at the next edge: it presents no command while `rst = 1` (I4), and holds a command it
presented until the command is accepted (R236). -/
def State.hostLegal (s : State) : Bool :=
  let e := s.nextEdge
  if e.rst then !e.cmdValid else !s.breaksHold e

/-- Everything but the vector registers and the response is as before: the parameters, the port and what is to come. -/
structure State.SamePort (s t : State) : Prop where
  cfg : t.cfg = s.cfg
  inFlight : t.inFlight = s.inFlight
  cmdReady : t.cmdReady = s.cmdReady
  rspValid : t.rspValid = s.rspValid
  offered : t.offered = s.offered
  edges : t.edges = s.edges
  idleEdges : t.idleEdges = s.idleEdges

/-- The command ended with status `c` and result `r`; every vector register but those in `written` is as before, and so is
the port. -/
structure State.Ends (s t : State) (c : BitVec 4) (r : BitVec 64) (written : List VIdx) : Prop where
  status : t.status = c
  result : t.result = r
  others : ∀ b : VIdx, b ∉ written → t.vec b = s.vec b
  count_vregs : t.vregs.length = s.vregs.length
  port : s.SamePort t

/-- Every command word that matches the row decodes to `f` of the triple (R67, R68). -/
def RowDecodes (mask pat : BitVec 32) (f : Command → Instr) : Prop :=
  ∀ c : Command, c.cmd &&& mask = pat → decode c = .ok (f c)

/-- `clamped(a, off)` in the words of R121. -/
def Clamps (v : VReg) (off : Nat) : Prop := v.fixed = true ∧ v.cap.toNat ≤ off

/-- The command completes with status `c` and result `r` and writes no vector. -/
def Answers (i : Instr) (s : State) (c : BitVec 4) (r : BitVec 64) : Prop :=
  ∃ t, exec i s = .next t ∧ s.Ends t c r []

/-- The command completes `OK` with result 0, writes the vector `va` and no other, keeps its fixed flag, capacity and length,
and leaves in bucket `i` the word `w i` (R140). -/
def Rewrites (i : Instr) (s : State) (va : VIdx) (w : Nat → Word) : Prop :=
  ∃ t, exec i s = .next t ∧ s.Ends t 0#4 0#64 [va] ∧ (t.vec va).fixed = (s.vec va).fixed ∧
    (t.vec va).cap = (s.vec va).cap ∧ (t.vec va).len = (s.vec va).len ∧ ∀ i, (t.vec va).word i = w i

/-- What SET, UNSET and TOGGLE do at offset `off`, `new` being the bit's new value as a function of the old (R124 to R126):
clamped, nothing; else beyond storage, `GROW` with the bucket count needed; else the length covers the offset's bucket, the
bit is `new`, every other bit is as before, and no other vector is written. -/
def WritesOneBit (i : VIdx → Opnd → Instr) (new : Bool → Bool) : Prop :=
  ∀ (s : State) (va : VIdx) (off : Opnd), s.Wf → va.toNat < s.cfg.nv →
    (Clamps (s.vec va) off.toNat → Answers (i va off) s 0#4 0#64) ∧
    (¬ Clamps (s.vec va) off.toNat → s.cfg.nb ≤ off.toNat / 32 →
      ∃ r, Answers (i va off) s 2#4 r ∧ r.toNat = off.toNat / 32 + 1) ∧
    (¬ Clamps (s.vec va) off.toNat → off.toNat / 32 < s.cfg.nb →
      ∃ t, exec (i va off) s = .next t ∧ s.Ends t 0#4 0#64 [va] ∧ (t.vec va).fixed = (s.vec va).fixed ∧
        (t.vec va).cap = (s.vec va).cap ∧ (t.vec va).len.toNat = max (s.vec va).len.toNat (off.toNat / 32 + 1) ∧
        ∀ k, (t.vec va).bit k = if k = off.toNat then new ((s.vec va).bit k) else (s.vec va).bit k)

/-- The commands R51 lists as idempotent. -/
def repeatable : Instr → Bool
  | .testBit _ _ => true
  | .rdw _ _ => true
  | .count _ => true
  | .rdlen _ => true
  | .rdfix _ => true
  | .eqV _ _ => true
  | .setBit _ _ => true
  | .unsetBit _ _ => true
  | .fill _ _ => true
  | .unfix _ => true
  | .init _ _ _ => true
  | .copy _ _ => true
  | .wrw _ _ _ => true
  | .orV _ _ => true
  | .andV _ _ => true
  | .nop => false
  | .toggleBit _ _ => false
  | .notV _ => false
  | .xorV _ _ => false

/-- The commands whose rule reads `OPND` (R64). -/
def readsOpnd : Instr → Bool
  | .init _ (some _) _ => true
  | .testBit _ _ => true
  | .setBit _ _ => true
  | .unsetBit _ _ => true
  | .toggleBit _ _ => true
  | .rdw _ _ => true
  | .wrw _ _ _ => true
  | .init _ none _ => false
  | .nop => false
  | .unfix _ => false
  | .copy _ _ => false
  | .count _ => false
  | .rdlen _ => false
  | .rdfix _ => false
  | .fill _ _ => false
  | .notV _ => false
  | .andV _ _ => false
  | .orV _ _ => false
  | .xorV _ _ => false
  | .eqV _ _ => false

end Sys2Proof.Machine
end

