-- ==== Sys2Proof/Certificates/Slice0/Obligations.lean ====
section
/-! DEFINITION. The statements about the model, one per entry of OBLIGATIONS.json. The words they use (`State.Wf`,
`State.Ends`, `Answers`, `Rewrites`, `WritesOneBit`, ...) are defined in Sys2Proof/Safety.lean. -/

open Sys2Proof Sys2Proof.Machine

/-! ### Encoding -/

/-- Decoding the triple a command is encoded to gives the command back, with every operand. -/
def Obligations.DecodeOfEncode : Prop := ∀ i : Instr, decode (encode i) = .ok i

/-- A command word has one meaning: a word that decodes is the word its command is encoded to (R68, R70). -/
def Obligations.EncodeOfDecode : Prop := ∀ (c : Command) (i : Instr), decode c = .ok i → (encode i).cmd = c.cmd

/-- At most one row of the opcode table matches a word (R67). -/
def Obligations.OpcodeRowsDisjoint : Prop :=
  ∀ (w : BitVec 32) (r r' : Row), r ∈ opcodeTable → r' ∈ opcodeTable → w &&& r.mask = r.pat → w &&& r'.mask = r'.pat →
    r = r'

/-- Words written out from the opcode table, one of each family. -/
def Obligations.SampleWordsDecode : Prop :=
  decode ⟨0x01000005#32, 1#64, 0#32⟩ = .ok (.init 0 (some 1) .ones) ∧
  decode ⟨0x0B300000#32, 33#64, 0#32⟩ = .ok (.toggleBit 3 33) ∧
  decode ⟨0x12210000#32, 0#64, 0#32⟩ = .ok (.andV 2 1) ∧
  decode ⟨0x18230000#32, 0#64, 0#32⟩ = .ok (.eqV 2 3) ∧
  decode ⟨0x21000000#32, 2#64, 0xDEADBEEF#32⟩ = .ok (.wrw 0 2 0xDEADBEEF) ∧
  decode ⟨0x01000007#32, 5#64, 0#32⟩ = .error .reservedFillMode

/-- R75: an alias assembles to the very command of its other spelling, on every operand. -/
def Obligations.AliasesAssembleAlike : Prop :=
  ∀ (a b : VIdx) (n : Nat),
    assembleForm "CLR".toList [.vec a, .lit n] = assembleForm "UNSET".toList [.vec a, .lit n] ∧
    assembleForm "CLONE".toList [.vec a, .vec b] = assembleForm "COPY".toList [.vec a, .vec b] ∧
    assembleForm "NEW".toList [.vec a] = assembleForm "INIT".toList [.vec a] ∧
    assembleForm "SETALL".toList [.vec a] = assembleForm "FILL".toList [.vec a, .lit 1] ∧
    assembleForm "CLEARALL".toList [.vec a] = assembleForm "FILL".toList [.vec a, .lit 0] ∧
    assembleForm "CLONE".toList [.vec a, .vec b] = some [.copy a b] ∧
    assembleForm "NEW".toList [.vec a] = some [.init a none .absent] ∧
    assembleForm "SETALL".toList [.vec a] = some [.fill a 1#8] ∧
    assembleForm "CLEARALL".toList [.vec a] = some [.fill a 0#8] ∧
    (n < 2 ^ 64 → assembleForm "CLR".toList [.vec a, .lit n] = some [.unsetBit a (BitVec.ofNat 64 n)])

/-- R69: reserved opcodes and `INIT`'s reserved fill mode complete with `ILLEGAL`, result 0, no vector changed. -/
def Obligations.ReservedOpcodeIsIllegal : Prop :=
  ∀ (c : Command) (s : State),
    (fieldOP c.cmd ∉ [0x00#8, 0x01#8, 0x02#8, 0x03#8, 0x08#8, 0x09#8, 0x0A#8, 0x0B#8, 0x0C#8, 0x0D#8, 0x0E#8, 0x10#8,
        0x11#8, 0x12#8, 0x13#8, 0x14#8, 0x18#8, 0x20#8, 0x21#8] ∨
      (fieldOP c.cmd = 0x01#8 ∧ (fieldIMM c.cmd).extractLsb' 1 2 = 0b11#2)) →
    ∃ t, perform c s = .next t ∧ s.Ends t 1#4 0#64 []

/-- R70: a non-zero bit where the row shows a fixed 0 makes the word illegal. -/
def Obligations.ReservedBitsAreIllegal : Prop :=
  ∀ (c : Command) (s : State),
    (fieldRSV c.cmd ≠ 0#8 ∨
      (fieldVB c.cmd ≠ 0#4 ∧ fieldOP c.cmd ∉ [0x03#8, 0x12#8, 0x13#8, 0x14#8, 0x18#8]) ∨
      (fieldIMM c.cmd ≠ 0#8 ∧ fieldOP c.cmd ∉ [0x01#8, 0x10#8]) ∨
      ((fieldIMM c.cmd).extractLsb' 3 5 ≠ 0#5 ∧ fieldOP c.cmd = 0x01#8) ∨
      (fieldVA c.cmd ≠ 0#4 ∧ fieldOP c.cmd = 0x00#8)) →
    ∃ t, perform c s = .next t ∧ s.Ends t 1#4 0#64 []

/-- R71: a command that names a vector at or beyond `NV` is illegal; with `NV = 16` none is. -/
def Obligations.VectorIndexBeyondNVIsIllegal : Prop :=
  (∀ (i : Instr) (s : State), (∃ a ∈ i.vectors, s.cfg.nv ≤ a.toNat) → Answers i s 1#4 0#64) ∧
  ∀ (i : Instr) (c : Config), c.nv = 16 → i.wf c = true

/-- A command that does not use `OPND` or `DATA` ignores it, whatever its value (R61, R64). -/
def Obligations.UnusedOperandsAreIgnored : Prop :=
  ∀ (c : Command) (i : Instr), decode c = .ok i →
    (readsOpnd i = false → ∀ o, decode { c with opnd := o } = .ok i) ∧
    ((∀ va idx d, i ≠ .wrw va idx d) → ∀ d, decode { c with data := d } = .ok i)

/-! ### The port and the step -/

/-- A step runs the decoded command: the one accepted at this edge or the one in flight, where the edge's draw says it
completes; the step adds the response and takes the edge off what is to come. -/
def Obligations.StepRunsTheDecodedCommand : Prop :=
  ∀ (s t : State) (e : Edge) (rest : List Edge) (i : Instr), s.edges = e :: rest → e.rst = false → e.done = true →
    (e.cmdValid = true → s.cmdReady = true → s.inFlight = none → (s.offered = none ∨ s.offered = some e.cmd) →
      decode e.cmd = .ok i → exec i { s with edges := rest, offered := none } = .next t → step s = .next t.respond) ∧
    (∀ c, s.inFlight = some c → s.breaksHold e = false → decode c = .ok i →
      exec i { s with edges := rest, offered := if e.cmdValid then some e.cmd else none } = .next t →
      step s = .next t.respond)

/-- A completing word that fails decode, accepted at this edge (held before it or not, R236) or already in flight, is answered
like any other command: `ILLEGAL`, result 0, the response pulse, every vector as before (R201, R206). -/
def Obligations.StepAnswersIllegalWords : Prop :=
  ∀ (s : State) (e : Edge) (rest : List Edge) (c : Command) (d : DecodeError), s.edges = e :: rest → e.rst = false →
    e.done = true → decode c = .error d →
    ((e.cmdValid = true ∧ e.cmd = c ∧ s.cmdReady = true ∧ s.inFlight = none ∧ (s.offered = none ∨ s.offered = some c)) ∨
      (s.inFlight = some c ∧ s.breaksHold e = false)) →
    ∃ t, step s = .next t ∧ t.status = 1#4 ∧ t.result = 0#64 ∧ t.rspValid = true ∧ t.inFlight = none ∧
      t.vregs = s.vregs ∧ t.edges = rest

/-- An accepted command that does not complete at once is in flight: no vector and no response register has changed, and the
block is not ready; a command in flight stays so until its completion is drawn (R50, R62). A command presented at this edge is
then the host's to hold, but for the one accepted here (R236). -/
def Obligations.AcceptedCommandIsInFlight : Prop :=
  ∀ (s : State) (e : Edge) (rest : List Edge) (c : Command), s.edges = e :: rest → e.rst = false → e.done = false →
    s.breaksHold e = false →
    ((s.inFlight = none ∧ s.cmdReady = true ∧ e.cmdValid = true ∧ e.cmd = c) ∨ s.inFlight = some c) →
    ∃ t, step s = .next t ∧ t.inFlight = some c ∧ t.cmdReady = false ∧ t.rspValid = false ∧ t.vregs = s.vregs ∧
      t.status = s.status ∧ t.result = s.result ∧ t.edges = rest ∧
      t.offered = if s.inFlight = none then none else if e.cmdValid then some e.cmd else none

/-- A command is in flight after a step only if it was before, or was accepted at this edge: `rst = 0`, `cmd_valid = 1`,
`cmd_ready = 1` and none in flight; and the edge drew no completion (R62). -/
def Obligations.CommandInFlightWasAccepted : Prop :=
  ∀ (s t : State) (c : Command), step s = .next t → t.inFlight = some c →
    s.nextEdge.rst = false ∧ s.nextEdge.done = false ∧
    (s.inFlight = some c ∨
      (s.inFlight = none ∧ s.cmdReady = true ∧ s.nextEdge.cmdValid = true ∧ s.nextEdge.cmd = c))

/-- An edge at which nothing is accepted and nothing is in flight changes only the port: no response, a presented command is
the host's to hold, and nothing else has changed (R62, R235, R236). That `cmd_ready` is then the edge's draw is the model's
choice (notes/assumptions/15.md), and so is the silent host beyond the list (notes/assumptions/4.md). -/
def Obligations.IdleEdgeChangesOnlyThePort : Prop :=
  (∀ (s : State) (e : Edge) (rest : List Edge), s.edges = e :: rest → e.rst = false → s.breaksHold e = false →
    s.inFlight = none → (e.cmdValid = false ∨ s.cmdReady = false) →
    ∃ t, step s = .next t ∧ t.inFlight = none ∧ t.rspValid = false ∧ t.cmdReady = e.ready ∧
      t.offered = (if e.cmdValid then some e.cmd else none) ∧ t.edges = rest ∧ t.idleEdges = s.idleEdges ∧
      t.cfg = s.cfg ∧ t.vregs = s.vregs ∧ t.status = s.status ∧ t.result = s.result) ∧
  ∀ s : State, s.edges = [] → s.offered = none → s.inFlight = none →
    ∃ t, step s = .next t ∧ t.inFlight = none ∧ t.rspValid = false ∧ t.cmdReady = Config.idleReady s.idleEdges ∧
      t.offered = none ∧ t.edges = [] ∧ t.idleEdges = s.idleEdges + 1 ∧ t.cfg = s.cfg ∧ t.vregs = s.vregs ∧
      t.status = s.status ∧ t.result = s.result

/-- `rsp_valid` is 1 for exactly one cycle, and the block is not ready in that cycle (R62). -/
def Obligations.ResponseLastsOneCycle : Prop :=
  ∀ s t : State, s.Wf → s.rspValid = true → step s = .next t → s.cmdReady = false ∧ t.rspValid = false

/-- Between two completions, and without a reset, the response registers and every vector hold (R30, R50, R62). -/
def Obligations.StateHoldsBetweenCompletions : Prop :=
  ∀ s t : State, s.nextEdge.rst = false → step s = .next t → t.rspValid = false →
    t.vregs = s.vregs ∧ t.status = s.status ∧ t.result = s.result

/-- A response belongs to a command that was accepted: the one in flight or one accepted at this very edge, and the new state
is that command's effect (R54, R62). -/
def Obligations.ResponseComesFromAcceptedCommand : Prop :=
  ∀ s t : State, step s = .next t → t.rspValid = true →
    ∃ (c : Command) (u : State),
      (s.inFlight = some c ∨ (s.inFlight = none ∧ s.cmdReady = true ∧ s.nextEdge.cmdValid = true ∧ s.nextEdge.cmd = c)) ∧
      perform c { s.dropEdge with offered := s.holding s.nextEdge } = .next u ∧ t = u.respond ∧ s.nextEdge.rst = false

/-- A hardware reset empties every vector, clears the response, discards a command in flight and produces no response; while
`rst = 1` the ready and valid outputs are 0; afterwards every TEST answers 0 (R34, R230, R231). Two clauses are the model's
reading (DEDUCED): the reset wins even where the edge draws a completion (notes/assumptions/18.md), and the outputs are 0
already in the first cycle of `rst`, before the edge that samples it (notes/assumptions/21.md); so is a third, that the host has
no command left to hold (notes/assumptions/6.md). `cmd_ready` afterwards is the edge's draw (R232, notes/assumptions/3.md). A
reset edge at which the host presents a command is refused (I4, notes/assumptions/7.md): StepRefusesExactlyUnlawfulHosts. -/
def Obligations.ResetEdgeEntersResetState : Prop :=
  ∀ (s : State) (e : Edge) (rest : List Edge), s.edges = e :: rest → e.rst = true → e.cmdValid = false →
    s.cmdReadyPin = false ∧ s.rspValidPin = false ∧
    ∃ t, step s = .next t ∧ t.cfg = s.cfg ∧ t.edges = rest ∧ t.vregs.length = s.cfg.nv ∧ t.result = 0#64 ∧
      t.status = 0#4 ∧ t.inFlight = none ∧ t.rspValid = false ∧ t.cmdReady = e.ready ∧ t.offered = none ∧
      (∀ a : VIdx, a.toNat < s.cfg.nv → (t.vec a).len = 0#33 ∧ (t.vec a).fixed = false ∧ (t.vec a).cap = 0#38 ∧
        ∀ i, (t.vec a).word i = 0#32) ∧
      ∀ (a : VIdx) (k : Opnd), a.toNat < s.cfg.nv → Answers (.testBit a k) t 0#4 0#64

/-- A step is refused exactly where the host breaks the handshake: it withdraws or changes a presented command before its
acceptance (R236), or presents one while `rst = 1` (I4). Every other step answers, and no step changes the parameters. -/
def Obligations.StepRefusesExactlyUnlawfulHosts : Prop :=
  ∀ s : State,
    (s.nextEdge.rst = true → s.nextEdge.cmdValid = true → step s = .refused .commandDuringReset) ∧
    (s.nextEdge.rst = false → (∃ c, s.offered = some c ∧ ¬ (s.nextEdge.cmdValid = true ∧ s.nextEdge.cmd = c)) →
      step s = .refused .unstableCommand) ∧
    (s.hostLegal = true → ∃ t, step s = .next t ∧ t.cfg = s.cfg)

/-- The invariants R27 and R28, the canonical storage, the produced statuses and the handshake hold at reset. -/
def Obligations.ResetIsWellFormed : Prop :=
  State.reset.Wf ∧ ∀ (c : Config) (ready : Bool) (es : List Edge) (n : Nat), (State.resetOf c ready es n).Wf

/-- Every step keeps them. -/
def Obligations.StepKeepsWellFormed : Prop := ∀ s t : State, s.Wf → step s = .next t → t.Wf

/-! ### What every command obeys -/

/-- Every command completes, writes no vector but its receiver, adds or removes no vector, and leaves the parameters, the port
and the host's stream to the step (R21, R40, R49). -/
def Obligations.EveryCommandCompletesWithinItsReceiver : Prop :=
  ∀ (i : Instr) (s : State), ∃ t, exec i s = .next t ∧ s.SamePort t ∧ t.vregs.length = s.vregs.length ∧
    ∀ b : VIdx, i.receiver ≠ some b → t.vec b = s.vec b

/-- R207: a command that completes with `ILLEGAL`, `GROW` or `SIZE` has changed no vector register. -/
def Obligations.FailedCommandsChangeNoVector : Prop :=
  ∀ (i : Instr) (s t : State), exec i s = .next t → t.status = 1#4 ∨ t.status = 2#4 ∨ t.status = 3#4 → t.vregs = s.vregs

/-- Which decoded command reports which status, and when (R200, R205): one of four codes; `ILLEGAL` only for a vector that does
not exist; `GROW` only from a write beyond storage to an unfixed vector; `SIZE` only from a sized INIT beyond storage; the
result of `ILLEGAL` and `SIZE` is 0. -/
def Obligations.StatusSaysWhatHappened : Prop :=
  ∀ (i : Instr) (s t : State), s.Wf → exec i s = .next t →
    (t.status = 0#4 ∨ t.status = 1#4 ∨ t.status = 2#4 ∨ t.status = 3#4) ∧
    (t.status = 1#4 ↔ i.wf s.cfg = false) ∧
    (t.status = 2#4 ↔ i.wf s.cfg = true ∧
      ((∃ va off, (i = .setBit va off ∨ i = .unsetBit va off ∨ i = .toggleBit va off) ∧
          (s.vec va).fixed = false ∧ s.cfg.nb ≤ off.toNat / 32) ∨
        ∃ va idx d, i = .wrw va idx d ∧ (s.vec va).fixed = false ∧ s.cfg.nb ≤ idx.toNat)) ∧
    (t.status = 3#4 ↔ i.wf s.cfg = true ∧ ∃ va n fm, i = .init va (some n) fm ∧ s.cfg.nb * 32 < n.toNat) ∧
    (t.status = 1#4 ∨ t.status = 3#4 → t.result = 0#64)

/-- Only INIT and COPY decrease a length, and only a sized INIT, or COPY from a fixed vector, fixes one (R23, R24). -/
def Obligations.LengthAndFixedFlagMoveOnlyAsStated : Prop :=
  ∀ (i : Instr) (s t : State) (a : VIdx), s.Wf → exec i s = .next t →
    ((t.vec a).len.toNat < (s.vec a).len.toNat → ∃ x fm b, i = .init a x fm ∨ i = .copy a b) ∧
    ((t.vec a).fixed = true → (s.vec a).fixed = false →
      (∃ n fm, i = .init a (some n) fm) ∨ ∃ b, i = .copy a b ∧ (s.vec b).fixed = true) ∧
    ((t.vec a).fixed = false → (s.vec a).fixed = true → (∃ fm, i = .init a none fm) ∨ i = .unfix a ∨ ∃ b, i = .copy a b)

/-- Bounds of R139: on the length, the capacity, the count, the bucket index of a bit offset and the bit commands' `GROW`
result. The model reads R139's `idx < 2^59` as the bit commands' (DEDUCED, notes/assumptions/20.md); WRW's `GROW` result is
WrwWritesOneBucket's. -/
def Obligations.ValuesFitTheirWidths : Prop :=
  ∀ (s : State) (a : VIdx), s.Wf → a.toNat < s.cfg.nv →
    (s.vec a).len.toNat ≤ 2 ^ 32 ∧ (s.vec a).cap.toNat ≤ 2 ^ 37 ∧ (s.vec a).count ≤ 2 ^ 37 ∧
    (∀ off : Opnd, bucketIndex off < 2 ^ 59) ∧
    ∀ (i : Instr) (t : State), exec i s = .next t → t.status = 2#4 → (∀ va idx d, i ≠ .wrw va idx d) →
      t.result.toNat ≤ 2 ^ 59

/-- A command's response, and what it leaves in the vectors it names, depend on those vectors alone: not on any other vector,
nor on the previous STATUS and RESULT (R32, R40). -/
def Obligations.CommandsReadOnlyTheVectorsTheyName : Prop :=
  ∀ (i : Instr) (s s' t t' : State), s.Wf → s'.Wf → s'.cfg = s.cfg → (∀ a ∈ i.vectors, s'.vec a = s.vec a) →
    exec i s = .next t → exec i s' = .next t' →
    t'.status = t.status ∧ t'.result = t.result ∧ ∀ a ∈ i.vectors, t'.vec a = t.vec a

/-! ### Construction and control -/

/-- R100: `NOP` is the word 0 exactly, and changes nothing but the response. -/
def Obligations.NopChangesOnlyTheResponse : Prop :=
  RowDecodes 0xFFFFFFFF 0x00000000 (fun _ => .nop) ∧
  (∀ (c : Command) (s : State), fieldOP c.cmd = 0x00#8 → c.cmd ≠ 0#32 →
    ∃ t, perform c s = .next t ∧ s.Ends t 1#4 0#64 []) ∧
  ∀ s : State, Answers .nop s 0#4 0#64

/-- R101: `INIT` re-creates the receiver; fill mode 11 and a vector that does not exist are illegal. -/
def Obligations.InitCreatesTheVector : Prop :=
  (∀ c : Command, c.cmd &&& 0xFF0FFFF8 = 0x01000000 → ∀ fm, fillModeOf (fieldIMM c.cmd) = some fm →
    decode c =
      .ok (.init (fieldVA c.cmd) (if (fieldIMM c.cmd).getLsbD 0 then some c.opnd else none) fm)) ∧
  (∀ (c : Command) (s : State), c.cmd &&& 0xFF0FFFF8 = 0x01000000 → (fieldIMM c.cmd).extractLsb' 1 2 = 0b11#2 →
    ∃ t, perform c s = .next t ∧ s.Ends t 1#4 0#64 []) ∧
  (∀ (s : State) (va : VIdx) (size : Option Opnd) (fm : FillMode), s.cfg.nv ≤ va.toNat →
    Answers (.init va size fm) s 1#4 0#64) ∧
  ∀ (s : State) (va : VIdx) (fm : FillMode), s.Wf → va.toNat < s.cfg.nv →
    (∃ t, exec (.init va none fm) s = .next t ∧ s.Ends t 0#4 0#64 [va] ∧ (t.vec va).fixed = false ∧
      (t.vec va).cap = 0#38 ∧ (t.vec va).len = 0#33 ∧ ∀ i, (t.vec va).word i = 0#32) ∧
    (∀ n : Opnd, s.cfg.nb * 32 < n.toNat → Answers (.init va (some n) fm) s 3#4 0#64) ∧
    ∀ n : Opnd, n.toNat ≤ s.cfg.nb * 32 →
      ∃ t, exec (.init va (some n) fm) s = .next t ∧ s.Ends t 0#4 0#64 [va] ∧ (t.vec va).fixed = true ∧
        (t.vec va).cap.toNat = (n.toNat + 31) / 32 * 32 ∧ (t.vec va).len.toNat = (n.toNat + 31) / 32 ∧
        ∀ i, (t.vec va).word i = if i < (n.toNat + 31) / 32 ∧ fm = .ones then 0xFFFFFFFF#32 else 0#32

/-- R233: the unsized `INIT` returns one vector to the reset state without touching the others. -/
def Obligations.UnsizedInitIsVectorReset : Prop :=
  ∀ (s : State) (va : VIdx) (fm : FillMode), s.Wf → va.toNat < s.cfg.nv →
    ∃ t, exec (.init va none fm) s = .next t ∧
      t.vec va = (State.resetOf s.cfg s.cmdReady s.edges s.idleEdges).vec va ∧
      ∀ b : VIdx, b ≠ va → t.vec b = s.vec b

/-- R102: `UNFIX` clears the fixed flag and the capacity; length, words and the count stay; afterwards no offset is clamped;
an unfixed vector is unchanged. -/
def Obligations.UnfixKeepsLengthAndWords : Prop :=
  RowDecodes 0xFF0FFFFF 0x02000000 (fun c => .unfix (fieldVA c.cmd)) ∧
  ∀ (s : State) (va : VIdx), s.Wf → va.toNat < s.cfg.nv →
    ∃ t, exec (.unfix va) s = .next t ∧ s.Ends t 0#4 0#64 [va] ∧ (t.vec va).fixed = false ∧ (t.vec va).cap = 0#38 ∧
      (t.vec va).len = (s.vec va).len ∧ (∀ i, (t.vec va).word i = (s.vec va).word i) ∧
      (t.vec va).count = (s.vec va).count ∧ (∀ off, ¬ Clamps (t.vec va) off) ∧
      ((s.vec va).fixed = false → t.vec va = s.vec va)

/-! ### Bit access -/

/-- R120: the decode of an offset loses no bit, and the mask is one-hot. -/
def Obligations.OffsetDecodeLosesNothing : Prop :=
  ∀ off : Opnd, bucketIndex off < 2 ^ 59 ∧ bitPosition off < 32 ∧ 32 * bucketIndex off + bitPosition off = off.toNat ∧
    ∀ j < 32, (bitMask (bitPosition off)).getLsbD j = decide (j = bitPosition off)

/-- R122: the extension step, on any vector: nothing to do below the length, no storage at or beyond `NB`, else the length is
exactly `idx + 1` and the new buckets are zero. -/
def Obligations.ExtensionZeroFills : Prop :=
  ∀ (c : Config) (v : VReg) (idx : Nat),
    (idx < v.len.toNat → v.extend c.nb idx = some v) ∧
    (v.len.toNat ≤ idx → c.nb ≤ idx → v.extend c.nb idx = none) ∧
    (v.len.toNat ≤ idx → idx < c.nb → ∃ v', v.extend c.nb idx = some v' ∧ v'.len.toNat = idx + 1 ∧ v'.fixed = v.fixed ∧
      v'.cap = v.cap ∧ ∀ i, v'.word i = if v.len.toNat ≤ i ∧ i < idx + 1 then 0#32 else v.word i)

/-- R123: `TEST` answers the bit, 0 where clamped or beyond the length. -/
def Obligations.TestReadsOneBit : Prop :=
  RowDecodes 0xFF0FFFFF 0x08000000 (fun c => .testBit (fieldVA c.cmd) c.opnd) ∧
  ∀ (s : State) (va : VIdx) (off : Opnd), va.toNat < s.cfg.nv →
    (Clamps (s.vec va) off.toNat ∨ (s.vec va).len.toNat ≤ off.toNat / 32 → Answers (.testBit va off) s 0#4 0#64) ∧
    (¬ Clamps (s.vec va) off.toNat → off.toNat / 32 < (s.vec va).len.toNat →
      Answers (.testBit va off) s 0#4 (if (s.vec va).bit off.toNat then 1#64 else 0#64))

/-- R124. -/
def Obligations.SetWritesOne : Prop :=
  RowDecodes 0xFF0FFFFF 0x09000000 (fun c => .setBit (fieldVA c.cmd) c.opnd) ∧ WritesOneBit .setBit fun _ => true

/-- R125. -/
def Obligations.UnsetWritesZero : Prop :=
  RowDecodes 0xFF0FFFFF 0x0A000000 (fun c => .unsetBit (fieldVA c.cmd) c.opnd) ∧ WritesOneBit .unsetBit fun _ => false

/-- R126. -/
def Obligations.ToggleInvertsTheBit : Prop :=
  RowDecodes 0xFF0FFFFF 0x0B000000 (fun c => .toggleBit (fieldVA c.cmd) c.opnd) ∧ WritesOneBit .toggleBit fun b => !b

/-- R127, R29: `COUNT` answers the capacity of a fixed vector, else 32 bits per bucket; the two agree, and are a multiple of
32 of at most `NB * 32`. -/
def Obligations.CountIsTheAddressableWidth : Prop :=
  RowDecodes 0xFF0FFFFF 0x0C000000 (fun c => .count (fieldVA c.cmd)) ∧
  ∀ (s : State) (va : VIdx), s.Wf → va.toNat < s.cfg.nv →
    ∃ r, Answers (.count va) s 0#4 r ∧
      ((s.vec va).fixed = true → r.toNat = (s.vec va).cap.toNat) ∧
      ((s.vec va).fixed = false → r.toNat = (s.vec va).len.toNat * 32) ∧
      r.toNat = (s.vec va).len.toNat * 32 ∧ r.toNat % 32 = 0 ∧ r.toNat ≤ s.cfg.nb * 32

/-- R128; for a fixed vector the length is `CAP / 32`. -/
def Obligations.RdlenReadsTheBucketCount : Prop :=
  RowDecodes 0xFF0FFFFF 0x0D000000 (fun c => .rdlen (fieldVA c.cmd)) ∧
  ∀ (s : State) (va : VIdx), s.Wf → va.toNat < s.cfg.nv →
    ∃ r, Answers (.rdlen va) s 0#4 r ∧ r.toNat = (s.vec va).len.toNat ∧
      ((s.vec va).fixed = true → r.toNat = (s.vec va).cap.toNat / 32)

/-- R129. -/
def Obligations.RdfixReadsTheFixedFlag : Prop :=
  RowDecodes 0xFF0FFFFF 0x0E000000 (fun c => .rdfix (fieldVA c.cmd)) ∧
  ∀ (s : State) (va : VIdx), va.toNat < s.cfg.nv →
    Answers (.rdfix va) s 0#4 (if (s.vec va).fixed then 1#64 else 0#64)

/-- R130: the laws (a) to (f) of the bit commands. -/
def Obligations.BitCommandLaws : Prop :=
  ∀ (s : State) (va : VIdx) (k : Opnd), s.Wf → va.toNat < s.cfg.nv →
    (∀ ready es n, Answers (.testBit va k) (State.resetOf s.cfg ready es n) 0#4 0#64) ∧
    (∀ fm t, exec (.init va none fm) s = .next t → Answers (.testBit va k) t 0#4 0#64) ∧
    (∀ t, exec (.setBit va k) s = .next t → t.status = 0#4 → ¬ Clamps (s.vec va) k.toNat →
      Answers (.testBit va k) t 0#4 1#64) ∧
    (∀ t u, exec (.setBit va k) s = .next t → t.status = 0#4 → exec (.unsetBit va k) t = .next u → u.status = 0#4 →
      Answers (.testBit va k) u 0#4 0#64) ∧
    (∀ t u, exec (.toggleBit va k) s = .next t → t.status = 0#4 → exec (.toggleBit va k) t = .next u → u.status = 0#4 →
      ∀ j, (u.vec va).bit j = (s.vec va).bit j) ∧
    (∀ i t, i ∈ [Instr.setBit va k, .unsetBit va k, .toggleBit va k] → exec i s = .next t →
      Clamps (s.vec va) k.toNat → t = { s with status := t.status, result := t.result }) ∧
    (Clamps (s.vec va) k.toNat → Answers (.testBit va k) s 0#4 0#64) ∧
    ∀ i t, i ∈ [Instr.testBit va k, .setBit va k, .unsetBit va k, .toggleBit va k] → exec i s = .next t →
      ∀ j, j ≠ k.toNat → (t.vec va).bit j = (s.vec va).bit j

/-! ### Word-parallel engines -/

/-- R141: `FILL` overwrites the existing buckets, and only them. -/
def Obligations.FillOverwritesExistingBuckets : Prop :=
  RowDecodes 0xFF0FFF00 0x10000000 (fun c => .fill (fieldVA c.cmd) (fieldIMM c.cmd)) ∧
  ∀ (s : State) (va : VIdx) (imm : BitVec 8), s.Wf → va.toNat < s.cfg.nv →
    Rewrites (.fill va imm) s va fun i =>
      if i < (s.vec va).len.toNat then (if imm = 0#8 then 0#32 else 0xFFFFFFFF#32) else 0#32

/-- R142. -/
def Obligations.NotComplementsExistingBuckets : Prop :=
  RowDecodes 0xFF0FFFFF 0x11000000 (fun c => .notV (fieldVA c.cmd)) ∧
  ∀ (s : State) (va : VIdx), s.Wf → va.toNat < s.cfg.nv →
    Rewrites (.notV va) s va fun i => if i < (s.vec va).len.toNat then ~~~ (s.vec va).word i else 0#32

/-- R143: the overlap is combined and the receiver's tail cleared. -/
def Obligations.AndClearsTheTail : Prop :=
  RowDecodes 0xFF00FFFF 0x12000000 (fun c => .andV (fieldVA c.cmd) (fieldVB c.cmd)) ∧
  ∀ (s : State) (va vb : VIdx), s.Wf → va.toNat < s.cfg.nv → vb.toNat < s.cfg.nv →
    Rewrites (.andV va vb) s va fun i =>
      if i < min (s.vec va).len.toNat (s.vec vb).len.toNat then (s.vec va).word i &&& (s.vec vb).word i else 0#32

/-- R144: the receiver's tail is left untouched. -/
def Obligations.OrLeavesTheTail : Prop :=
  RowDecodes 0xFF00FFFF 0x13000000 (fun c => .orV (fieldVA c.cmd) (fieldVB c.cmd)) ∧
  ∀ (s : State) (va vb : VIdx), s.Wf → va.toNat < s.cfg.nv → vb.toNat < s.cfg.nv →
    Rewrites (.orV va vb) s va fun i =>
      if i < min (s.vec va).len.toNat (s.vec vb).len.toNat then (s.vec va).word i ||| (s.vec vb).word i
      else (s.vec va).word i

/-- R145: the receiver's tail is left untouched. -/
def Obligations.XorLeavesTheTail : Prop :=
  RowDecodes 0xFF00FFFF 0x14000000 (fun c => .xorV (fieldVA c.cmd) (fieldVB c.cmd)) ∧
  ∀ (s : State) (va vb : VIdx), s.Wf → va.toNat < s.cfg.nv → vb.toNat < s.cfg.nv →
    Rewrites (.xorV va vb) s va fun i =>
      if i < min (s.vec va).len.toNat (s.vec vb).len.toNat then (s.vec va).word i ^^^ (s.vec vb).word i
      else (s.vec va).word i

/-- R147: commutativity on same-length operands and on no others, idempotence, involution, and FILL then OR. -/
def Obligations.EngineLaws : Prop :=
  ∀ (s : State) (x y : VIdx), s.Wf → x.toNat < s.cfg.nv → y.toNat < s.cfg.nv →
    (∀ op t u, op ∈ [Instr.andV, Instr.orV, Instr.xorV] → exec (op x y) s = .next t → exec (op y x) s = .next u →
      ((s.vec x).len = (s.vec y).len →
        (t.vec x).len = (u.vec y).len ∧ ∀ i, (t.vec x).word i = (u.vec y).word i) ∧
      ((s.vec x).len ≠ (s.vec y).len → (t.vec x).len ≠ (u.vec y).len)) ∧
    (∀ op t, op ∈ [Instr.andV, Instr.orV] → exec (op x x) s = .next t → t.vec x = s.vec x) ∧
    (∀ t, exec (.xorV x x) s = .next t → (t.vec x).len = (s.vec x).len ∧ ∀ i, (t.vec x).word i = 0#32) ∧
    (∀ t u, exec (.notV x) s = .next t → exec (.notV x) t = .next u → u.vec x = s.vec x) ∧
    (∀ t u, y ≠ x → exec (.xorV x y) s = .next t → exec (.xorV x y) t = .next u → u.vec x = s.vec x) ∧
    ∀ t u, exec (.fill x 0#8) s = .next t → exec (.orV x y) t = .next u →
      (u.vec x).len = (s.vec x).len ∧ (y ≠ x → t.vec y = s.vec y) ∧
      ∀ i, (u.vec x).word i = if i < (s.vec x).len.toNat then (t.vec y).word i else 0#32

/-! ### Comparison and copy -/

/-- R160: `EQ` answers 1 exactly when lengths and words agree; the fixed flag and capacity do not matter. -/
def Obligations.EqComparesLengthAndWords : Prop :=
  RowDecodes 0xFF00FFFF 0x18000000 (fun c => .eqV (fieldVA c.cmd) (fieldVB c.cmd)) ∧
  ∀ (s : State) (va vb : VIdx), va.toNat < s.cfg.nv → vb.toNat < s.cfg.nv →
    ((s.vec va).len = (s.vec vb).len ∧ (∀ i < (s.vec va).len.toNat, (s.vec va).word i = (s.vec vb).word i) →
      Answers (.eqV va vb) s 0#4 1#64) ∧
    (¬ ((s.vec va).len = (s.vec vb).len ∧ ∀ i < (s.vec va).len.toNat, (s.vec va).word i = (s.vec vb).word i) →
      Answers (.eqV va vb) s 0#4 0#64)

/-- R161: `COPY` makes the receiver an independent copy. -/
def Obligations.CopyMakesAnEqualVector : Prop :=
  RowDecodes 0xFF00FFFF 0x03000000 (fun c => .copy (fieldVA c.cmd) (fieldVB c.cmd)) ∧
  ∀ (s : State) (va vb : VIdx), s.Wf → va.toNat < s.cfg.nv → vb.toNat < s.cfg.nv →
    ∃ t, exec (.copy va vb) s = .next t ∧ s.Ends t 0#4 0#64 [va] ∧ (t.vec va).fixed = (s.vec vb).fixed ∧
      (t.vec va).cap = (s.vec vb).cap ∧ (t.vec va).len = (s.vec vb).len ∧
      (∀ i, (t.vec va).word i = (s.vec vb).word i) ∧ (va = vb → t.vec va = s.vec va)

/-- R162 (a), (b): `EQ` is an equivalence; after `COPY vA, vB`, `EQ`, `RDFIX` and `COUNT` see no difference. -/
def Obligations.CompareAndCopyLaws : Prop :=
  ∀ (s : State) (a b c : VIdx), s.Wf → a.toNat < s.cfg.nv → b.toNat < s.cfg.nv → c.toNat < s.cfg.nv →
    Answers (.eqV a a) s 0#4 1#64 ∧
    (Answers (.eqV a b) s 0#4 1#64 → Answers (.eqV b a) s 0#4 1#64) ∧
    (Answers (.eqV a b) s 0#4 1#64 → Answers (.eqV b c) s 0#4 1#64 → Answers (.eqV a c) s 0#4 1#64) ∧
    (∀ t, exec (.copy a b) s = .next t → Answers (.eqV a b) t 0#4 1#64 ∧
      (∀ r, Answers (.rdfix a) t 0#4 r ↔ Answers (.rdfix b) t 0#4 r) ∧
      ∀ r, Answers (.count a) t 0#4 r ↔ Answers (.count b) t 0#4 r)

/-- R76: the pure forms expand to COPY then the operator, are refused exactly where the COPY would overwrite the second
operand, and otherwise leave in `vD` what the mutating form would leave in `vA`, with `vA` and `vB` as before. -/
def Obligations.PureFormsCompute : Prop :=
  ∀ (s : State) (d a b : VIdx), s.Wf → d.toNat < s.cfg.nv → a.toNat < s.cfg.nv → b.toNat < s.cfg.nv →
    (∀ p op, (p, op) ∈ [(Pseudo.andp d a b, Instr.andV), (Pseudo.orp d a b, Instr.orV), (Pseudo.xorp d a b, Instr.xorV)] →
      (d = b ∧ d ≠ a → p.expand = none) ∧
      (¬ (d = b ∧ d ≠ a) → p.expand = some [.copy d a, op d b] ∧
        ∃ t u, issue [.copy d a, op d b] s = .next t ∧ exec (op a b) s = .next u ∧ t.vec d = u.vec a ∧
          ∀ x : VIdx, x ≠ d → t.vec x = s.vec x)) ∧
    (Pseudo.notp d a).expand = some [.copy d a, .notV d] ∧
    ∃ t u, issue [.copy d a, .notV d] s = .next t ∧ exec (.notV a) s = .next u ∧ t.vec d = u.vec a ∧
      ∀ x : VIdx, x ≠ d → t.vec x = s.vec x

/-! ### Word access -/

/-- R180: `RDW` answers the bucket, zero beyond the length; for a fixed vector that is beyond the capacity. -/
def Obligations.RdwReadsOneBucket : Prop :=
  RowDecodes 0xFF0FFFFF 0x20000000 (fun c => .rdw (fieldVA c.cmd) c.opnd) ∧
  ∀ (s : State) (va : VIdx) (idx : Opnd), s.Wf → va.toNat < s.cfg.nv →
    ((s.vec va).len.toNat ≤ idx.toNat → Answers (.rdw va idx) s 0#4 0#64) ∧
    (idx.toNat < (s.vec va).len.toNat →
      ∃ r, Answers (.rdw va idx) s 0#4 r ∧ r.toNat = ((s.vec va).word idx.toNat).toNat) ∧
    ((s.vec va).fixed = true → (idx.toNat < (s.vec va).len.toNat ↔ 32 * idx.toNat < (s.vec va).cap.toNat))

/-- R181: `WRW` is clamped on a fixed vector, reports `GROW` with the bucket count needed beyond storage, and else extends as
SET does and replaces the whole bucket. At index `2^64 - 1` the count does not fit `RESULT`, and nothing is said of it there
(notes/assumptions/20.md). -/
def Obligations.WrwWritesOneBucket : Prop :=
  RowDecodes 0xFF0FFFFF 0x21000000 (fun c => .wrw (fieldVA c.cmd) c.opnd c.data) ∧
  ∀ (s : State) (va : VIdx) (idx : Opnd) (d : Word), s.Wf → va.toNat < s.cfg.nv →
    ((s.vec va).fixed = true → (s.vec va).cap.toNat / 32 ≤ idx.toNat → Answers (.wrw va idx d) s 0#4 0#64) ∧
    (¬ ((s.vec va).fixed = true ∧ (s.vec va).cap.toNat / 32 ≤ idx.toNat) → s.cfg.nb ≤ idx.toNat →
      ∃ r, Answers (.wrw va idx d) s 2#4 r ∧ (idx.toNat + 1 < 2 ^ 64 → r.toNat = idx.toNat + 1)) ∧
    (¬ ((s.vec va).fixed = true ∧ (s.vec va).cap.toNat / 32 ≤ idx.toNat) → idx.toNat < s.cfg.nb →
      ∃ t, exec (.wrw va idx d) s = .next t ∧ s.Ends t 0#4 0#64 [va] ∧ (t.vec va).fixed = (s.vec va).fixed ∧
        (t.vec va).cap = (s.vec va).cap ∧ (t.vec va).len.toNat = max (s.vec va).len.toNat (idx.toNat + 1) ∧
        (∀ i, (t.vec va).word i = if i = idx.toNat then d else (s.vec va).word i) ∧
        Answers (.rdw va idx) t 0#4 (d.zeroExtend 64))

/-- R44: the bit space and the word space are two views of one storage. -/
def Obligations.BitAndWordViewsAgree : Prop :=
  ∀ (s t : State) (va : VIdx), s.Wf → va.toNat < s.cfg.nv →
    (∀ (idx : Opnd) (w : Word) (j : Nat) (k : Opnd), exec (.wrw va idx w) s = .next t → t.status = 0#4 →
      ¬ Clamps (s.vec va) (32 * idx.toNat) → j < 32 → k.toNat = 32 * idx.toNat + j →
      Answers (.testBit va k) t 0#4 (if w.getLsbD j then 1#64 else 0#64)) ∧
    (∀ k idx : Opnd, exec (.setBit va k) s = .next t → t.status = 0#4 → ¬ Clamps (s.vec va) k.toNat →
      idx.toNat = k.toNat / 32 → ∃ r, Answers (.rdw va idx) t 0#4 r ∧ r.getLsbD (k.toNat % 32) = true)

/-- R51: which commands are idempotent, and what repeating TOGGLE, NOT and XOR restores. -/
def Obligations.RepeatedCommands : Prop :=
  ∀ (s t u : State) (i : Instr), s.Wf → i.wf s.cfg = true → exec i s = .next t → exec i t = .next u →
    (repeatable i = true → u = t) ∧
    (∀ va k, i = .toggleBit va k → (∀ j, (u.vec va).bit j = (s.vec va).bit j) ∧ (u.vec va).len = (t.vec va).len) ∧
    (∀ va, i = .notV va → u.vec va = s.vec va) ∧
    ∀ va vb, i = .xorV va vb → vb ≠ va → u.vec va = s.vec va

/-! ### Host sequences -/

/-- R182 (a), (b): `fromBuckets` builds an unfixed vector of exactly the given words, and `toBuckets` reads them back. -/
def Obligations.BucketsRoundTrip : Prop :=
  ∀ (s : State) (va : VIdx) (ws : List Word), s.Wf → va.toNat < s.cfg.nv → ws.length ≤ s.cfg.nb →
    ∃ t, issue (fromBuckets va ws) s = .next t ∧ (t.vec va).fixed = false ∧ (t.vec va).len.toNat = ws.length ∧
      (∀ b : VIdx, b ≠ va → t.vec b = s.vec b) ∧ toBuckets va t = ws

/-- R47, R182 (c), (d): `fromArray` builds a fixed vector of the length rounded up to 32, and `toArray` reads the elements
back, with the bits of the rounding unset. -/
def Obligations.ArrayRoundTrip : Prop :=
  ∀ (s : State) (va : VIdx) (bs : List Bool), s.Wf → va.toNat < s.cfg.nv → bs.length ≤ s.cfg.nb * 32 →
    ∃ t, issue (fromArray va bs) s = .next t ∧ (t.vec va).fixed = true ∧
      (t.vec va).cap.toNat = (bs.length + 31) / 32 * 32 ∧ (∀ b : VIdx, b ≠ va → t.vec b = s.vec b) ∧
      toArray va t = bs ++ List.replicate ((bs.length + 31) / 32 * 32 - bs.length) false
end

