-- ==== Sys2Proof/Laws/Decode.lean ====
section
/-! SUPPORT. The command word's fields come back out of it, a word matches at most one row of the opcode table, and which
row each command's word matches (spec/30_encoding.md R63, R67, R68). -/

namespace Sys2Proof

theorem toNat_append_add {m n : Nat} (x : BitVec m) (y : BitVec n) : (x ++ y).toNat = x.toNat * 2 ^ n + y.toNat := by
  rw [BitVec.toNat_append, ← Nat.shiftLeft_add_eq_or_of_lt y.isLt, Nat.shiftLeft_eq]

section fields
variable (op : BitVec 8) (va vb : VIdx) (imm : BitVec 8)

/-- The layout of R63 as a number. -/
theorem commandWord_toNat :
    (commandWord op va vb imm).toNat = op.toNat * 2 ^ 24 + va.toNat * 2 ^ 20 + vb.toNat * 2 ^ 16 + imm.toNat := by
  simp only [commandWord, toNat_append_add, BitVec.toNat_ofNat]
  omega

@[simp] theorem fieldOP_commandWord : fieldOP (commandWord op va vb imm) = op := by
  apply BitVec.eq_of_toNat_eq
  rw [fieldOP, BitVec.extractLsb'_toNat, commandWord_toNat, Nat.shiftRight_eq_div_pow]
  have := op.isLt; have := va.isLt; have := vb.isLt; have := imm.isLt
  omega

@[simp] theorem fieldVA_commandWord : fieldVA (commandWord op va vb imm) = va := by
  apply BitVec.eq_of_toNat_eq
  rw [fieldVA, BitVec.extractLsb'_toNat, commandWord_toNat, Nat.shiftRight_eq_div_pow]
  have := op.isLt; have := va.isLt; have := vb.isLt; have := imm.isLt
  omega

@[simp] theorem fieldVB_commandWord : fieldVB (commandWord op va vb imm) = vb := by
  apply BitVec.eq_of_toNat_eq
  rw [fieldVB, BitVec.extractLsb'_toNat, commandWord_toNat, Nat.shiftRight_eq_div_pow]
  have := op.isLt; have := va.isLt; have := vb.isLt; have := imm.isLt
  omega

@[simp] theorem fieldRSV_commandWord : fieldRSV (commandWord op va vb imm) = 0x00#8 := by
  apply BitVec.eq_of_toNat_eq
  rw [fieldRSV, BitVec.extractLsb'_toNat, commandWord_toNat, Nat.shiftRight_eq_div_pow]
  have := op.isLt; have := va.isLt; have := vb.isLt; have := imm.isLt
  simp
  omega

@[simp] theorem fieldIMM_commandWord : fieldIMM (commandWord op va vb imm) = imm := by
  apply BitVec.eq_of_toNat_eq
  rw [fieldIMM, BitVec.extractLsb'_toNat, commandWord_toNat, Nat.shiftRight_eq_div_pow]
  have := op.isLt; have := va.isLt; have := vb.isLt; have := imm.isLt
  omega

end fields

/-- A command word is the concatenation of its fields (R63). -/
theorem word_eq_fields (w : BitVec 32) (h : fieldRSV w = 0x00#8) :
    commandWord (fieldOP w) (fieldVA w) (fieldVB w) (fieldIMM w) = w := by
  have h' := congrArg BitVec.toNat h
  apply BitVec.eq_of_toNat_eq
  rw [commandWord_toNat]
  simp only [fieldOP, fieldVA, fieldVB, fieldIMM, fieldRSV, BitVec.extractLsb'_toNat, Nat.shiftRight_eq_div_pow,
    BitVec.toNat_ofNat] at h' ⊢
  have := w.isLt
  omega

/-- `INIT`'s mode bits come back out of its immediate (R65). -/
theorem fillModeOf_initImm (sized : Bool) (fm : FillMode) : fillModeOf (initImm sized fm) = some fm := by
  cases sized <;> cases fm <;> decide

theorem sized_initImm (sized : Bool) (fm : FillMode) : (initImm sized fm).getLsbD 0 = sized := by
  cases sized <;> cases fm <;> decide

/-! ### The opcode table -/

theorem mask_op : ∀ r ∈ opcodeTable, fieldOP r.mask = 0xFF#8 := by decide

/-- Every row fixes all eight bits of `OP` (R67). -/
theorem Row.hits_op {r : Row} (hr : r ∈ opcodeTable) {w : BitVec 32} (h : r.hits w = true) :
    fieldOP w = fieldOP r.pat := by
  have hmask : fieldOP r.mask = 0xFF#8 := mask_op r hr
  have heq : w &&& r.mask = r.pat := by simpa [Row.hits] using h
  have : fieldOP w &&& fieldOP r.mask = fieldOP r.pat := by
    rw [← heq, fieldOP, fieldOP, fieldOP, ← BitVec.extractLsb'_and]
  rw [← this, hmask]
  exact (BitVec.and_allOnes (x := fieldOP w)).symm

theorem row_eq_of_op : ∀ r ∈ opcodeTable, ∀ r' ∈ opcodeTable, fieldOP r.pat = fieldOP r'.pat → r = r' := by decide

/-- A row that matches is the row the search of R67 finds. -/
theorem find_row {r : Row} (hr : r ∈ opcodeTable) {w : BitVec 32} (h : r.hits w = true) :
    opcodeTable.find? (fun r => r.hits w) = some r := by
  cases hf : opcodeTable.find? (fun r => r.hits w) with
  | none => exact absurd h (List.find?_eq_none.1 hf r hr)
  | some r' =>
    have hr' := List.mem_of_find?_eq_some hf
    have hh : r'.hits w = true := by simpa using List.find?_some hf
    exact congrArg some
      (row_eq_of_op r' hr' r hr ((Row.hits_op hr' hh).symm.trans (Row.hits_op hr h)))

theorem decode_of_hits {r : Row} (hr : r ∈ opcodeTable) {c : Command} (h : r.hits c.cmd = true) :
    decode c = r.op.assemble c := by
  rw [decode, find_row hr h]

/-- A word that matches a row decodes as that row says. -/
theorem decode_row {r : Row} (hr : r ∈ opcodeTable) {c : Command} (h : c.cmd &&& r.mask = r.pat) :
    decode c = r.op.assemble c := decode_of_hits hr (by simpa [Row.hits] using h)

/-- A command that decodes matches a row, and is that row's command. -/
theorem decode_inv {c : Command} {i : Instr} (h : decode c = .ok i) :
    ∃ r ∈ opcodeTable, c.cmd &&& r.mask = r.pat ∧ r.op.assemble c = .ok i := by
  unfold decode at h
  split at h
  · next r hf => exact ⟨r, List.mem_of_find?_eq_some hf, by simpa [Row.hits] using List.find?_some hf, h⟩
  · cases h

/-- A word no row matches decodes to no command. -/
theorem decode_none {c : Command} (h : ∀ r ∈ opcodeTable, c.cmd &&& r.mask ≠ r.pat) : ∃ d, decode c = .error d := by
  unfold decode
  split
  · next r hf => exact absurd (by simpa [Row.hits] using List.find?_some hf) (h r (List.mem_of_find?_eq_some hf))
  · exact ⟨_, rfl⟩

/-- What a match says of one field of the word. -/
theorem field_of_match {w m p : BitVec 32} (h : w &&& m = p) (k n : Nat) :
    w.extractLsb' k n &&& m.extractLsb' k n = p.extractLsb' k n := by
  rw [← h, BitVec.extractLsb'_and]

end Sys2Proof
end

