-- ==== Sys2Proof/Laws/Operands.lean ====
section
/-! SUPPORT. The operand forms: the offset decode is division by 32, the mask is one-hot, the rounding is up to a multiple of
32. -/

namespace Sys2Proof.Machine

theorem bucketIndex_eq (off : Opnd) : bucketIndex off = off.toNat / 32 := by
  rw [bucketIndex, Nat.shiftRight_eq_div_pow]

theorem bitPosition_eq (off : Opnd) : bitPosition off = off.toNat % 32 := by
  rw [bitPosition]; exact Nat.and_two_pow_sub_one_eq_mod off.toNat 5

theorem bitPosition_lt (off : Opnd) : bitPosition off < 32 := by
  rw [bitPosition_eq]; exact Nat.mod_lt _ (by decide)

theorem bitMask_getLsbD {p j : Nat} (hj : j < 32) : (bitMask p).getLsbD j = decide (j = p) := by
  simp only [bitMask, BitVec.getLsbD_shiftLeft, BitVec.getLsbD_one]
  by_cases h : j = p
  · subst h; simp [hj]
  · by_cases hlt : j < p
    · simp [hlt, h]
    · have : j - p ≠ 0 := by omega
      simp [h, this]

theorem ceil32_mod (n : Nat) : ceil32 n % 32 = 0 := by rw [ceil32]; omega

theorem ceil32_div_mul (n : Nat) : ceil32 n / 32 * 32 = ceil32 n := by rw [ceil32]; omega

theorem ceil32_le {n m : Nat} (h : n ≤ m * 32) : ceil32 n ≤ m * 32 := by rw [ceil32]; omega

theorem le_ceil32 (n : Nat) : n ≤ ceil32 n := by rw [ceil32]; omega

theorem ceil32_of_mod {n : Nat} (h : n % 32 = 0) : ceil32 n = n := by rw [ceil32]; omega

theorem clamped_iff {v : VReg} {off : Nat} : v.clamped off = true ↔ v.fixed = true ∧ v.cap.toNat ≤ off := by
  simp [VReg.clamped]

theorem wordClamped_iff {v : VReg} {i : Nat} :
    v.wordClamped i = true ↔ v.fixed = true ∧ v.cap.toNat / 32 ≤ i := by
  simp [VReg.wordClamped]

/-- Two words are equal when their 32 bits are. -/
theorem word_ext {x y : Word} (h : ∀ j < 32, x.getLsbD j = y.getLsbD j) : x = y :=
  BitVec.eq_of_getLsbD_eq h

end Sys2Proof.Machine
end

