-- ==== Sys2Proof/Laws/State.lean ====
section
/-! SUPPORT. One lemma per field per update of the state, each true by rfl, and the register file's read-after-write. -/

namespace Sys2Proof.Machine

section finish
variable (s : State) (c : BitVec 4) (r : BitVec 64)
@[simp] theorem finish_cfg : (s.finish c r).cfg = s.cfg := rfl
@[simp] theorem finish_vregs : (s.finish c r).vregs = s.vregs := rfl
@[simp] theorem finish_result : (s.finish c r).result = r := rfl
@[simp] theorem finish_status : (s.finish c r).status = c := rfl
@[simp] theorem finish_inFlight : (s.finish c r).inFlight = s.inFlight := rfl
@[simp] theorem finish_cmdReady : (s.finish c r).cmdReady = s.cmdReady := rfl
@[simp] theorem finish_rspValid : (s.finish c r).rspValid = s.rspValid := rfl
@[simp] theorem finish_offered : (s.finish c r).offered = s.offered := rfl
@[simp] theorem finish_edges : (s.finish c r).edges = s.edges := rfl
@[simp] theorem finish_idleEdges : (s.finish c r).idleEdges = s.idleEdges := rfl
@[simp] theorem finish_vec (a : VIdx) : (s.finish c r).vec a = s.vec a := rfl
end finish

section setVec
variable (s : State) (a : VIdx) (v : VReg)
@[simp] theorem setVec_cfg : (s.setVec a v).cfg = s.cfg := rfl
@[simp] theorem setVec_vregs : (s.setVec a v).vregs = s.vregs.set a.toNat v := rfl
@[simp] theorem setVec_result : (s.setVec a v).result = s.result := rfl
@[simp] theorem setVec_status : (s.setVec a v).status = s.status := rfl
@[simp] theorem setVec_inFlight : (s.setVec a v).inFlight = s.inFlight := rfl
@[simp] theorem setVec_cmdReady : (s.setVec a v).cmdReady = s.cmdReady := rfl
@[simp] theorem setVec_rspValid : (s.setVec a v).rspValid = s.rspValid := rfl
@[simp] theorem setVec_offered : (s.setVec a v).offered = s.offered := rfl
@[simp] theorem setVec_edges : (s.setVec a v).edges = s.edges := rfl
@[simp] theorem setVec_idleEdges : (s.setVec a v).idleEdges = s.idleEdges := rfl

theorem setVec_vec_same (h : a.toNat < s.vregs.length) : (s.setVec a v).vec a = v := by
  simp [State.vec, List.getD_eq_getElem?_getD, h]

theorem setVec_vec_other {b : VIdx} (h : b ≠ a) : (s.setVec a v).vec b = s.vec b := by
  have hn : ¬ a.toNat = b.toNat := fun e => h (BitVec.eq_of_toNat_eq e.symm)
  simp [State.vec, List.getD_eq_getElem?_getD, hn]
end setVec

section respond
variable (s : State)
@[simp] theorem respond_cfg : s.respond.cfg = s.cfg := rfl
@[simp] theorem respond_vregs : s.respond.vregs = s.vregs := rfl
@[simp] theorem respond_result : s.respond.result = s.result := rfl
@[simp] theorem respond_status : s.respond.status = s.status := rfl
@[simp] theorem respond_inFlight : s.respond.inFlight = none := rfl
@[simp] theorem respond_cmdReady : s.respond.cmdReady = false := rfl
@[simp] theorem respond_rspValid : s.respond.rspValid = true := rfl
@[simp] theorem respond_offered : s.respond.offered = s.offered := rfl
@[simp] theorem respond_edges : s.respond.edges = s.edges := rfl
@[simp] theorem respond_idleEdges : s.respond.idleEdges = s.idleEdges := rfl
@[simp] theorem respond_vec (a : VIdx) : s.respond.vec a = s.vec a := rfl
end respond

section stayBusy
variable (s : State) (c : Command)
@[simp] theorem stayBusy_cfg : (s.stayBusy c).cfg = s.cfg := rfl
@[simp] theorem stayBusy_vregs : (s.stayBusy c).vregs = s.vregs := rfl
@[simp] theorem stayBusy_result : (s.stayBusy c).result = s.result := rfl
@[simp] theorem stayBusy_status : (s.stayBusy c).status = s.status := rfl
@[simp] theorem stayBusy_inFlight : (s.stayBusy c).inFlight = some c := rfl
@[simp] theorem stayBusy_cmdReady : (s.stayBusy c).cmdReady = false := rfl
@[simp] theorem stayBusy_rspValid : (s.stayBusy c).rspValid = false := rfl
@[simp] theorem stayBusy_offered : (s.stayBusy c).offered = s.offered := rfl
@[simp] theorem stayBusy_edges : (s.stayBusy c).edges = s.edges := rfl
@[simp] theorem stayBusy_idleEdges : (s.stayBusy c).idleEdges = s.idleEdges := rfl
@[simp] theorem stayBusy_vec (a : VIdx) : (s.stayBusy c).vec a = s.vec a := rfl
end stayBusy

section idle
variable (s : State) (b : Bool)
@[simp] theorem idle_cfg : (s.idle b).cfg = s.cfg := rfl
@[simp] theorem idle_vregs : (s.idle b).vregs = s.vregs := rfl
@[simp] theorem idle_result : (s.idle b).result = s.result := rfl
@[simp] theorem idle_status : (s.idle b).status = s.status := rfl
@[simp] theorem idle_inFlight : (s.idle b).inFlight = none := rfl
@[simp] theorem idle_cmdReady : (s.idle b).cmdReady = b := rfl
@[simp] theorem idle_rspValid : (s.idle b).rspValid = false := rfl
@[simp] theorem idle_offered : (s.idle b).offered = s.offered := rfl
@[simp] theorem idle_edges : (s.idle b).edges = s.edges := rfl
@[simp] theorem idle_idleEdges : (s.idle b).idleEdges = s.idleEdges := rfl
@[simp] theorem idle_vec (a : VIdx) : (s.idle b).vec a = s.vec a := rfl
end idle

section dropEdge
variable (s : State)
@[simp] theorem dropEdge_cfg : s.dropEdge.cfg = s.cfg := by unfold State.dropEdge; split <;> rfl
@[simp] theorem dropEdge_vregs : s.dropEdge.vregs = s.vregs := by unfold State.dropEdge; split <;> rfl
@[simp] theorem dropEdge_result : s.dropEdge.result = s.result := by unfold State.dropEdge; split <;> rfl
@[simp] theorem dropEdge_status : s.dropEdge.status = s.status := by unfold State.dropEdge; split <;> rfl
@[simp] theorem dropEdge_inFlight : s.dropEdge.inFlight = s.inFlight := by unfold State.dropEdge; split <;> rfl
@[simp] theorem dropEdge_cmdReady : s.dropEdge.cmdReady = s.cmdReady := by unfold State.dropEdge; split <;> rfl
@[simp] theorem dropEdge_rspValid : s.dropEdge.rspValid = s.rspValid := by unfold State.dropEdge; split <;> rfl
@[simp] theorem dropEdge_offered : s.dropEdge.offered = s.offered := by unfold State.dropEdge; split <;> rfl
@[simp] theorem dropEdge_vec (a : VIdx) : s.dropEdge.vec a = s.vec a := by simp [State.vec]
end dropEdge

@[simp] theorem resetOf_vec (c : Config) (ready : Bool) (es : List Edge) (n : Nat) (a : VIdx) :
    (State.resetOf c ready es n).vec a = VReg.empty := by
  simp only [State.vec, State.resetOf, List.getD_eq_getElem?_getD, List.getElem?_replicate]
  split <;> rfl

@[simp] theorem empty_word (i : Nat) : VReg.empty.word i = 0#32 := rfl

theorem SamePort.refl (s : State) : s.SamePort s := ⟨rfl, rfl, rfl, rfl, rfl, rfl, rfl⟩

theorem SamePort.trans {s t u : State} (h : s.SamePort t) (h' : t.SamePort u) : s.SamePort u :=
  ⟨h'.cfg.trans h.cfg, h'.inFlight.trans h.inFlight, h'.cmdReady.trans h.cmdReady, h'.rspValid.trans h.rspValid,
    h'.offered.trans h.offered, h'.edges.trans h.edges, h'.idleEdges.trans h.idleEdges⟩

/-- A command that ends without writing a vector. -/
theorem ends_finish (s : State) (c : BitVec 4) (r : BitVec 64) (written : List VIdx) :
    s.Ends (s.finish c r) c r written :=
  ⟨rfl, rfl, fun _ _ => rfl, rfl, ⟨rfl, rfl, rfl, rfl, rfl, rfl, rfl⟩⟩

/-- A command that ends having written the vector `a`. -/
theorem ends_setVec_finish (s : State) (a : VIdx) (v : VReg) (c : BitVec 4) (r : BitVec 64) :
    s.Ends ((s.setVec a v).finish c r) c r [a] :=
  ⟨rfl, rfl, fun b hb => by simpa using setVec_vec_other s a v (b := b) (by simpa using hb), by simp,
    ⟨rfl, rfl, rfl, rfl, rfl, rfl, rfl⟩⟩

end Sys2Proof.Machine
end

