-- ==== Sys2Proof/Laws/Store.lean ====
section
/-! SUPPORT. The bucket storage: what each operation reads as afterwards, and that each keeps the canonical form. -/

namespace Sys2Proof.Machine

namespace Store

@[simp] theorem read_nil (i : Nat) : read [] i = 0#32 := rfl

@[simp] theorem wf_nil : wf [] = true := rfl

theorem wfFrom_cons {lo i : Nat} {w : Word} {rest : Store} :
    wfFrom lo ((i, w) :: rest) = true ↔ lo ≤ i ∧ w ≠ 0#32 ∧ wfFrom (i + 1) rest = true := by
  simp [wfFrom, and_assoc]

theorem wfFrom_mono {lo lo' : Nat} (h : lo' ≤ lo) : ∀ {st : Store}, wfFrom lo st = true → wfFrom lo' st = true
  | [], _ => rfl
  | (i, w) :: rest, hw => by
    rw [wfFrom_cons] at hw ⊢
    exact ⟨h.trans hw.1, hw.2⟩

theorem wf_of_wfFrom {lo : Nat} {st : Store} (h : wfFrom lo st = true) : wf st = true := wfFrom_mono (Nat.zero_le lo) h

/-- Below the index the canonical form starts from, nothing is stored. -/
theorem read_below {i : Nat} : ∀ {lo : Nat} {st : Store}, wfFrom lo st = true → i < lo → read st i = 0#32
  | _, [], _, _ => rfl
  | lo, (j, w) :: rest, hw, hi => by
    rw [wfFrom_cons] at hw
    rw [read, if_neg (by omega)]
    exact read_below hw.2.2 (by omega)

theorem write_wfFrom {i : Nat} {w : Word} :
    ∀ {lo : Nat} {st : Store}, wfFrom lo st = true → lo ≤ i → wfFrom lo (write st i w) = true
  | lo, [], _, hi => by
    unfold write
    split
    · rfl
    · next hw => exact wfFrom_cons.2 ⟨hi, hw, rfl⟩
  | lo, (j, v) :: rest, hst, hi => by
    have hst' := wfFrom_cons.1 hst
    unfold write
    split
    · split
      · exact hst
      · next hw => exact wfFrom_cons.2 ⟨hi, hw, wfFrom_cons.2 ⟨by omega, hst'.2⟩⟩
    · split
      · split
        · exact wfFrom_mono (by omega) hst'.2.2
        · next hw => exact wfFrom_cons.2 ⟨hst'.1, hw, hst'.2.2⟩
      · exact wfFrom_cons.2 ⟨hst'.1, hst'.2.1, write_wfFrom hst'.2.2 (by omega)⟩

theorem write_wf {st : Store} {i : Nat} {w : Word} (h : wf st = true) : wf (write st i w) = true :=
  write_wfFrom h (Nat.zero_le i)

/-- Read after write, from any start of the canonical form. -/
theorem read_write_from {i k : Nat} {w : Word} :
    ∀ {lo : Nat} {st : Store}, wfFrom lo st = true → read (write st i w) k = if k = i then w else read st k
  | _, [], _ => by
    unfold write
    split
    · next hw => simp [hw]
    · simp [read]
  | lo, (j, v) :: rest, hst => by
    have hst' := wfFrom_cons.1 hst
    unfold write
    split
    · next hij =>
      split
      · next hw =>
        split
        · next hk => subst hk; rw [read, if_neg (by omega), read_below hst'.2.2 (by omega), hw]
        · rfl
      · rfl
    · next hij =>
      split
      · next he =>
        subst he
        split
        · next hw =>
          split
          · next hk => subst hk; rw [read_below hst'.2.2 (by omega), hw]
          · next hk => rw [read, if_neg hk]
        · simp only [read]
          split <;> simp_all
      · next hne =>
        rw [read, read_write_from hst'.2.2, read]
        by_cases hk : k = i
        · subst hk; simp [hne]
        · simp [hk]

theorem read_write {st : Store} {i k : Nat} {w : Word} (h : wf st = true) :
    read (write st i w) k = if k = i then w else read st k := read_write_from h

/-- The loop over `[lo, lo + n)` reads, at each index of its range, the loop body of what was there before, and leaves every
other index alone; it keeps the canonical form. -/
theorem updateRange_spec (f : Nat → Word → Word) :
    ∀ (n lo : Nat) {st : Store}, wf st = true →
      wf (updateRange f lo n st) = true ∧
      ∀ k, read (updateRange f lo n st) k = if lo ≤ k ∧ k < lo + n then f k (read st k) else read st k
  | 0, lo, st, h => by
    refine ⟨h, fun k => ?_⟩
    rw [updateRange, if_neg (by omega)]
  | n + 1, lo, st, h => by
    have ih := updateRange_spec f n (lo + 1) (st := st.write lo (f lo (st.read lo))) (write_wf h)
    refine ⟨ih.1, fun k => ?_⟩
    rw [updateRange, ih.2 k, read_write h]
    by_cases hk : k = lo
    · subst hk
      rw [if_neg (by omega), if_pos rfl, if_pos (by omega)]
    · simp only [hk, if_false]
      by_cases hr : lo + 1 ≤ k ∧ k < lo + 1 + n
      · rw [if_pos hr, if_pos (by omega)]
      · rw [if_neg hr, if_neg (by omega)]

theorem read_zeroRange {lo hi k : Nat} :
    ∀ {st : Store}, read (zeroRange lo hi st) k = if lo ≤ k ∧ k < hi then 0#32 else read st k
  | [] => by simp [zeroRange]
  | (j, v) :: rest => by
    have ih := read_zeroRange (lo := lo) (hi := hi) (k := k) (st := rest)
    unfold zeroRange at ih ⊢
    by_cases hj : j < lo ∨ hi ≤ j
    · rw [List.filter_cons_of_pos (by simpa using hj), read, ih, read]
      by_cases hk : k = j
      · subst hk; rw [if_pos rfl, if_neg (by omega), if_pos rfl]
      · simp [hk]
    · rw [List.filter_cons_of_neg (by simpa using hj), ih, read]
      by_cases hk : k = j
      · subst hk; rw [if_pos (by omega), if_pos (by omega)]
      · simp [hk]

theorem zeroRange_wfFrom {lo hi : Nat} :
    ∀ {start : Nat} {st : Store}, wfFrom start st = true → wfFrom start (zeroRange lo hi st) = true
  | _, [], _ => rfl
  | start, (j, v) :: rest, h => by
    have h' := wfFrom_cons.1 h
    have ih := zeroRange_wfFrom (lo := lo) (hi := hi) h'.2.2
    unfold zeroRange at ih ⊢
    by_cases hj : j < lo ∨ hi ≤ j
    · rw [List.filter_cons_of_pos (by simpa using hj)]
      exact wfFrom_cons.2 ⟨h'.1, h'.2.1, ih⟩
    · rw [List.filter_cons_of_neg (by simpa using hj)]
      exact wfFrom_mono (by omega) ih

theorem zeroRange_wf {lo hi : Nat} {st : Store} (h : wf st = true) : wf (zeroRange lo hi st) = true :=
  zeroRange_wfFrom h

theorem wfFrom_map_range' {w : Word} (hw : w ≠ 0#32) :
    ∀ n lo : Nat, wfFrom lo ((List.range' lo n).map fun i => (i, w)) = true
  | 0, _ => rfl
  | n + 1, lo => by
    rw [List.range'_succ, List.map_cons]
    exact wfFrom_cons.2 ⟨le_rfl, hw, wfFrom_map_range' hw n (lo + 1)⟩

theorem read_map_range' {w : Word} {k : Nat} :
    ∀ n lo : Nat, read ((List.range' lo n).map fun i => (i, w)) k = if lo ≤ k ∧ k < lo + n then w else 0#32
  | 0, lo => by rw [if_neg (by omega)]; rfl
  | n + 1, lo => by
    rw [List.range'_succ, List.map_cons, read, read_map_range' n (lo + 1)]
    by_cases hk : k = lo
    · subst hk; rw [if_pos rfl, if_pos (by omega)]
    · rw [if_neg hk]
      by_cases hr : lo + 1 ≤ k ∧ k < lo + 1 + n
      · rw [if_pos hr, if_pos (by omega)]
      · rw [if_neg hr, if_neg (by omega)]

theorem filled_wf (n : Nat) (w : Word) : wf (filled n w) = true := by
  unfold filled
  split
  · rfl
  · next hw => rw [List.range_eq_range']; exact wfFrom_map_range' hw n 0

theorem read_filled (n : Nat) (w : Word) (k : Nat) : read (filled n w) k = if k < n then w else 0#32 := by
  unfold filled
  split
  · next hw => simp [hw]
  · rw [List.range_eq_range', read_map_range']; simp

theorem sameBelow_iff {x y : Store} : ∀ {n : Nat}, sameBelow x y n = true ↔ ∀ i < n, read x i = read y i
  | 0 => by simp [sameBelow]
  | n + 1 => by
    rw [sameBelow, Bool.and_eq_true, sameBelow_iff (n := n), beq_iff_eq]
    constructor
    · rintro ⟨h, hn⟩ i hi
      rcases Nat.lt_succ_iff_lt_or_eq.1 hi with h' | rfl
      · exact h i h'
      · exact hn
    · exact fun h => ⟨fun i hi => h i (by omega), h n (by omega)⟩

theorem ext_from : ∀ {lo : Nat} {x y : Store}, wfFrom lo x = true → wfFrom lo y = true →
    (∀ i, read x i = read y i) → x = y
  | _, [], [], _, _, _ => rfl
  | lo, [], (j, w) :: rest, _, hy, h => by
    have := h j
    rw [read, read, if_pos rfl] at this
    exact absurd this.symm (wfFrom_cons.1 hy).2.1
  | lo, (j, w) :: rest, [], hx, _, h => by
    have := h j
    rw [read, read, if_pos rfl] at this
    exact absurd this (wfFrom_cons.1 hx).2.1
  | lo, (i, v) :: xs, (j, w) :: ys, hx, hy, h => by
    have hx' := wfFrom_cons.1 hx
    have hy' := wfFrom_cons.1 hy
    have hij : i = j := by
      rcases Nat.lt_trichotomy i j with hlt | he | hgt
      · have := h i
        rw [read, if_pos rfl, read, if_neg (by omega), read_below hy'.2.2 (by omega)] at this
        exact absurd this hx'.2.1
      · exact he
      · have := h j
        rw [read, if_neg (by omega), read_below hx'.2.2 (by omega), read, if_pos rfl] at this
        exact absurd this.symm hy'.2.1
    subst hij
    have hvw : v = w := by simpa [read] using h i
    subst hvw
    refine congrArg _ (ext_from hx'.2.2 hy'.2.2 fun k => ?_)
    by_cases hk : k = i
    · subst hk; rw [read_below hx'.2.2 (by omega), read_below hy'.2.2 (by omega)]
    · simpa [read, hk] using h k

/-- Canonical stores that read alike are equal data. -/
theorem ext_of_wf {x y : Store} (hx : wf x = true) (hy : wf y = true) (h : ∀ i, read x i = read y i) : x = y :=
  ext_from hx hy h

end Store

end Sys2Proof.Machine
end

