-- ==== Sys2Proof/Laws/Ops.lean ====
section
/-! SUPPORT. What each shared operation over vector registers can do, once: later proofs cite these and unfold nothing. -/

namespace Sys2Proof.Machine

/-! ### The register file and the vector checks -/

theorem onVector_legal {s : State} {va : VIdx} (h : va.toNat < s.cfg.nv) (k : VReg → State) :
    s.onVector va k = k (s.vec va) := if_pos h

theorem onVector_illegal {s : State} {va : VIdx} (h : ¬ va.toNat < s.cfg.nv) (k : VReg → State) :
    s.onVector va k = s.raiseIllegal := if_neg h

theorem onVectors_legal {s : State} {va vb : VIdx} (ha : va.toNat < s.cfg.nv) (hb : vb.toNat < s.cfg.nv)
    (k : VReg → VReg → State) : s.onVectors va vb k = k (s.vec va) (s.vec vb) := by
  rw [State.onVectors, onVector_legal ha, onVector_legal hb]

theorem onVectors_illegal {s : State} {va vb : VIdx} (h : ¬ (va.toNat < s.cfg.nv ∧ vb.toNat < s.cfg.nv))
    (k : VReg → VReg → State) : s.onVectors va vb k = s.raiseIllegal := by
  rw [State.onVectors]
  by_cases ha : va.toNat < s.cfg.nv
  · rw [onVector_legal ha, onVector_illegal fun hb => h ⟨ha, hb⟩]
  · rw [onVector_illegal ha]

/-! ### The invariant of one vector -/

namespace VRegWf

theorem empty (nb : Nat) : VReg.empty.Wf nb where
  len_le := Nat.zero_le _
  fixed_cap h := by cases h
  unfixed_cap _ := rfl
  cap_le := Nat.zero_le _
  cap_mod := rfl
  canonical := rfl
  zero_beyond _ _ := rfl

variable {nb : Nat} {v : VReg}

theorem fixed_lt (h : v.Wf nb) (hf : v.fixed = true) {off : Nat} (hc : ¬ v.clamped off = true) :
    off / 32 < v.len.toNat := by
  have hcap := h.fixed_cap hf
  rw [clamped_iff] at hc
  have : ¬ v.cap.toNat ≤ off := fun hle => hc ⟨hf, hle⟩
  omega

theorem word_fixed_lt (h : v.Wf nb) (hf : v.fixed = true) {i : Nat} (hc : ¬ v.wordClamped i = true) :
    i < v.len.toNat := by
  have hcap := h.fixed_cap hf
  rw [wordClamped_iff] at hc
  have : ¬ v.cap.toNat / 32 ≤ i := fun hle => hc ⟨hf, hle⟩
  omega

/-- Both arms of R29 agree on a well-formed vector. -/
theorem count_eq (h : v.Wf nb) : v.count = v.len.toNat * 32 := by
  rw [VReg.count]
  split
  · next hf => exact h.fixed_cap hf
  · rfl

/-- Well-formed vectors that agree in length, flag, capacity and every word are equal data. -/
theorem ext {v' : VReg} (h : v.Wf nb) (h' : v'.Wf nb) (hl : v.len = v'.len) (hf : v.fixed = v'.fixed)
    (hc : v.cap = v'.cap) (hw : ∀ i, v.word i = v'.word i) : v = v' := by
  have hb := Store.ext_of_wf h.canonical h'.canonical hw
  cases v; cases v'
  simp_all

/-- Changing only words below the length keeps a vector well formed. -/
theorem of_words (h : v.Wf nb) {v' : VReg} (hl : v'.len = v.len) (hf : v'.fixed = v.fixed) (hc : v'.cap = v.cap)
    (hwf : v'.buckets.wf = true) (hw : ∀ i, v.len.toNat ≤ i → v'.word i = v.word i) : v'.Wf nb where
  len_le := by rw [hl]; exact h.len_le
  fixed_cap := by rw [hl, hf, hc]; exact h.fixed_cap
  unfixed_cap := by rw [hf, hc]; exact h.unfixed_cap
  cap_le := by rw [hc]; exact h.cap_le
  cap_mod := by rw [hc]; exact h.cap_mod
  canonical := hwf
  zero_beyond i hi := by rw [hl] at hi; rw [hw i hi]; exact h.zero_beyond i hi

end VRegWf

theorem bit_beyond {nb : Nat} {v : VReg} (h : v.Wf nb) {k : Nat} (hk : v.len.toNat ≤ k / 32) : v.bit k = false := by
  rw [VReg.bit, h.zero_beyond _ hk]; simp

/-! ### Loops over buckets -/

theorem mapWords_spec (v : VReg) (lo hi : Nat) (f : Nat → Word → Word) (h : v.buckets.wf = true) :
    (v.mapWords lo hi f).buckets.wf = true ∧
    ∀ i, (v.mapWords lo hi f).word i = if lo ≤ i ∧ i < hi then f i (v.word i) else v.word i := by
  have hs := Store.updateRange_spec f (hi - lo) lo h
  refine ⟨hs.1, fun i => ?_⟩
  rw [VReg.word, VReg.mapWords, hs.2 i]
  by_cases hr : lo ≤ i ∧ i < hi
  · rw [if_pos hr, if_pos (by omega)]; rfl
  · rw [if_neg hr, if_neg (by omega)]; rfl

@[simp] theorem mapWords_len (v : VReg) (lo hi : Nat) (f : Nat → Word → Word) : (v.mapWords lo hi f).len = v.len := rfl
@[simp] theorem mapWords_fixed (v : VReg) (lo hi : Nat) (f : Nat → Word → Word) :
    (v.mapWords lo hi f).fixed = v.fixed := rfl
@[simp] theorem mapWords_cap (v : VReg) (lo hi : Nat) (f : Nat → Word → Word) : (v.mapWords lo hi f).cap = v.cap := rfl

theorem mapWords_wf {nb : Nat} {v : VReg} (h : v.Wf nb) {lo hi : Nat} (hhi : hi ≤ v.len.toNat)
    (f : Nat → Word → Word) : (v.mapWords lo hi f).Wf nb := by
  have hs := mapWords_spec v lo hi f h.canonical
  refine VRegWf.of_words h rfl rfl rfl hs.1 fun i hi' => ?_
  rw [hs.2 i, if_neg (by omega)]

@[simp] theorem combine_len (a b : VReg) (f : Word → Word → Word) : (a.combine b f).len = a.len := rfl
@[simp] theorem combine_fixed (a b : VReg) (f : Word → Word → Word) : (a.combine b f).fixed = a.fixed := rfl
@[simp] theorem combine_cap (a b : VReg) (f : Word → Word → Word) : (a.combine b f).cap = a.cap := rfl

theorem combine_word (a b : VReg) (f : Word → Word → Word) (h : a.buckets.wf = true) (i : Nat) :
    (a.combine b f).word i =
      if i < min a.len.toNat b.len.toNat then f (a.word i) (b.word i) else a.word i := by
  rw [VReg.combine, (mapWords_spec a 0 _ _ h).2 i]
  simp

theorem combine_wf {nb : Nat} {a : VReg} (h : a.Wf nb) (b : VReg) (f : Word → Word → Word) : (a.combine b f).Wf nb :=
  mapWords_wf h (by omega) _

/-- The per-bit unset of a tail bucket clears each bit that is not clamped. -/
theorem unsetBits_getLsbD (v : VReg) (i : Nat) (w : Word) {j : Nat} (hj : j < 32) :
    ∀ n, (v.unsetBits i n w).getLsbD j =
      if j < n ∧ v.clamped (32 * i + j) = false then false else w.getLsbD j
  | 0 => by simp [VReg.unsetBits]
  | n + 1 => by
    have ih := unsetBits_getLsbD v i w hj n
    have step : (v.unsetBits i (n + 1) w).getLsbD j =
        if v.clamped (32 * i + n) = true then (v.unsetBits i n w).getLsbD j
        else ((v.unsetBits i n w).getLsbD j && !decide (j = n)) := by
      rw [VReg.unsetBits]
      split
      · rfl
      · rw [BitVec.getLsbD_and, BitVec.getLsbD_not, bitMask_getLsbD hj]; simp [hj]
    rw [step, ih]
    by_cases hjn : j = n
    · subst hjn
      cases hc : v.clamped (32 * i + j) <;> simp
    · by_cases hlt : j < n
      · have : j < n + 1 := by omega
        cases hc : v.clamped (32 * i + j) <;> simp [hlt, this, hjn]
      · have : ¬ j < n + 1 := by omega
        simp [hlt, this, hjn]

/-- No tail bit of a well-formed vector is clamped, so the per-bit unset is a word clear (R143 (b)). -/
theorem unsetBits_tail {nb : Nat} {v : VReg} (h : v.Wf nb) {i : Nat} (hi : i < v.len.toNat) (w : Word) :
    v.unsetBits i 32 w = 0#32 := by
  refine word_ext fun j hj => ?_
  have hc : v.clamped (32 * i + j) = false := by
    rw [Bool.eq_false_iff, ne_eq, clamped_iff]
    rintro ⟨hf, hle⟩
    have := h.fixed_cap hf
    omega
  rw [unsetBits_getLsbD v i w hj, if_pos ⟨hj, hc⟩]
  simp

@[simp] theorem andWith_len (a b : VReg) : (a.andWith b).len = a.len := rfl
@[simp] theorem andWith_fixed (a b : VReg) : (a.andWith b).fixed = a.fixed := rfl
@[simp] theorem andWith_cap (a b : VReg) : (a.andWith b).cap = a.cap := rfl

theorem andWith_wf {nb : Nat} {a : VReg} (h : a.Wf nb) (b : VReg) : (a.andWith b).Wf nb :=
  combine_wf (mapWords_wf h le_rfl _) b _

/-- AND: the overlap is combined, the receiver's tail is zero (R143, R146). -/
theorem andWith_word {nb : Nat} {a : VReg} (h : a.Wf nb) (b : VReg) (i : Nat) :
    (a.andWith b).word i = if i < min a.len.toNat b.len.toNat then a.word i &&& b.word i else 0#32 := by
  have ht := mapWords_spec a (min a.len.toNat b.len.toNat) a.len.toNat (fun i w => a.unsetBits i 32 w) h.canonical
  rw [VReg.andWith, combine_word _ _ _ ht.1, ht.2 i, mapWords_len]
  by_cases hm : i < min a.len.toNat b.len.toNat
  · rw [if_pos hm, if_pos hm, if_neg (by omega)]
  · rw [if_neg hm, if_neg hm]
    split
    · next hr => exact unsetBits_tail h hr.2 _
    · exact h.zero_beyond i (by omega)

/-! ### The extension step and the write datapath -/

theorem toNat_len_ofNat {n : Nat} (h : n ≤ 2 ^ 32) : (BitVec.ofNat 33 n).toNat = n := by
  rw [BitVec.toNat_ofNat, Nat.mod_eq_of_lt]; omega

theorem toNat_cap_ofNat {n : Nat} (h : n ≤ 2 ^ 37) : (BitVec.ofNat 38 n).toNat = n := by
  rw [BitVec.toNat_ofNat, Nat.mod_eq_of_lt]; omega

theorem extend_grow {nb : Nat} {v : VReg} {idx : Nat} (h : v.len.toNat ≤ idx) (hnb : nb ≤ idx) :
    v.extend nb idx = none := by
  rw [VReg.extend, if_neg (by omega), if_pos hnb]

/-- Within storage the extension leaves every word as it reads, and makes the length cover the index (R122). -/
theorem extend_spec {nb : Nat} (hnb : nb ≤ 2 ^ 32) {v : VReg} (h : v.Wf nb) {idx : Nat}
    (hin : idx < v.len.toNat ∨ idx < nb) (hfix : v.fixed = true → idx < v.len.toNat) :
    ∃ v', v.extend nb idx = some v' ∧ v'.Wf nb ∧ v'.len.toNat = max v.len.toNat (idx + 1) ∧
      v'.fixed = v.fixed ∧ v'.cap = v.cap ∧ ∀ i, v'.word i = v.word i := by
  by_cases hlt : idx < v.len.toNat
  · exact ⟨v, if_pos hlt, h, by omega, rfl, rfl, fun _ => rfl⟩
  · have hnf : v.fixed = false := by
      cases hf : v.fixed with
      | false => rfl
      | true => exact absurd (hfix hf) hlt
    have hlen : (BitVec.ofNat 33 (idx + 1)).toNat = idx + 1 := toNat_len_ofNat (by omega)
    have hword : ∀ i, Store.read (v.buckets.zeroRange v.len.toNat (idx + 1)) i = v.word i := fun i => by
      rw [Store.read_zeroRange]
      split
      · next hr => exact (h.zero_beyond i hr.1).symm
      · rfl
    refine ⟨{ v with buckets := v.buckets.zeroRange v.len.toNat (idx + 1), len := BitVec.ofNat 33 (idx + 1) },
      ?_, ?_, ?_, rfl, rfl, hword⟩
    · rw [VReg.extend, if_neg hlt, if_neg (by omega)]
    · exact
        { len_le := by rw [hlen]; omega
          fixed_cap := fun hf => absurd (hnf.symm.trans hf) Bool.false_ne_true
          unfixed_cap := h.unfixed_cap
          cap_le := h.cap_le
          cap_mod := h.cap_mod
          canonical := Store.zeroRange_wf h.canonical
          zero_beyond := fun i hi => by
            rw [hlen] at hi
            exact (hword i).trans (h.zero_beyond i (by omega)) }
    · rw [hlen]; omega

theorem setWord_word {v : VReg} (h : v.buckets.wf = true) (i k : Nat) (w : Word) :
    (v.setWord i w).word k = if k = i then w else v.word k := Store.read_write h

theorem setWord_wf {nb : Nat} {v : VReg} (h : v.Wf nb) {i : Nat} (hi : i < v.len.toNat) (w : Word) :
    (v.setWord i w).Wf nb := by
  refine VRegWf.of_words h rfl rfl rfl (Store.write_wf h.canonical) fun k hk => ?_
  rw [setWord_word h.canonical, if_neg (by omega)]

section writeBucket
variable {s : State} {va : VIdx} {clamp : VReg → Bool} {idx : Nat} {f : Word → Word}

theorem writeBucket_clamped (ha : va.toNat < s.cfg.nv) (hc : clamp (s.vec va) = true) :
    s.writeBucket va clamp idx f = s.finish statusOK 0#64 := by
  rw [State.writeBucket, onVector_legal ha, if_pos hc]

theorem writeBucket_grow (ha : va.toNat < s.cfg.nv) (hc : ¬ clamp (s.vec va) = true)
    (hl : (s.vec va).len.toNat ≤ idx) (hnb : s.cfg.nb ≤ idx) :
    s.writeBucket va clamp idx f = s.raiseGrow (idx + 1) := by
  rw [State.writeBucket, onVector_legal ha, if_neg hc, extend_grow hl hnb]

/-- A write that is neither clamped nor beyond storage: the vector it leaves. -/
theorem writeBucket_write (ha : va.toNat < s.cfg.nv) (hv : (s.vec va).Wf s.cfg.nb)
    (hc : ¬ clamp (s.vec va) = true) (hin : idx < (s.vec va).len.toNat ∨ idx < s.cfg.nb)
    (hfix : (s.vec va).fixed = true → idx < (s.vec va).len.toNat) :
    ∃ v', s.writeBucket va clamp idx f = (s.setVec va v').finish statusOK 0#64 ∧ v'.Wf s.cfg.nb ∧
      v'.len.toNat = max (s.vec va).len.toNat (idx + 1) ∧ v'.fixed = (s.vec va).fixed ∧ v'.cap = (s.vec va).cap ∧
      ∀ i, v'.word i = if i = idx then f ((s.vec va).word idx) else (s.vec va).word i := by
  obtain ⟨v', he, hwf, hlen, hf, hcap, hw⟩ := extend_spec s.cfg.nb_le hv hin hfix
  refine ⟨v'.setWord idx (f (v'.word idx)), ?_, setWord_wf hwf (by omega) _, hlen, hf, hcap, fun i => ?_⟩
  · rw [State.writeBucket, onVector_legal ha, if_neg hc, he]
  · rw [setWord_word hwf.canonical, hw, hw]

end writeBucket

end Sys2Proof.Machine
end

