-- ==== Sys2Proof/Laws/Exec.lean ====
section
/-! SUPPORT. What a command can do, once (`exec_cases`), and the effect of each shared datapath at the level of commands. -/

namespace Sys2Proof.Machine

/-! ### Well-formedness of the indices, shape by shape -/

theorem wf_one {c : Config} {a : VIdx} {i : Instr} (h : i.vectors = [a]) : i.wf c = true ↔ a.toNat < c.nv := by
  simp [Instr.wf, h, vectorExists]

theorem wf_two {c : Config} {a b : VIdx} {i : Instr} (h : i.vectors = [a, b]) :
    i.wf c = true ↔ a.toNat < c.nv ∧ b.toNat < c.nv := by
  simp [Instr.wf, h, vectorExists]

theorem writeBucket_illegal {s : State} {va : VIdx} (h : ¬ va.toNat < s.cfg.nv) (clamp : VReg → Bool) (idx : Nat)
    (f : Word → Word) : s.writeBucket va clamp idx f = s.raiseIllegal := onVector_illegal h _

/-- A command that names a vector that does not exist is illegal (R71). -/
theorem exec_illegal {i : Instr} {s : State} (h : i.wf s.cfg = false) : exec i s = .next s.raiseIllegal := by
  have hne : ¬ i.wf s.cfg = true := by rw [h]; exact Bool.false_ne_true
  cases i with
  | nop => exact absurd rfl hne
  | copy va vb => exact congrArg _ (onVectors_illegal ((wf_two rfl).not.1 hne) _)
  | andV va vb => exact congrArg _ (onVectors_illegal ((wf_two rfl).not.1 hne) _)
  | orV va vb => exact congrArg _ (onVectors_illegal ((wf_two rfl).not.1 hne) _)
  | xorV va vb => exact congrArg _ (onVectors_illegal ((wf_two rfl).not.1 hne) _)
  | eqV va vb => exact congrArg _ (onVectors_illegal ((wf_two rfl).not.1 hne) _)
  | init va size fm => exact congrArg _ (onVector_illegal ((wf_one rfl).not.1 hne) _)
  | unfix va => exact congrArg _ (onVector_illegal ((wf_one rfl).not.1 hne) _)
  | testBit va off => exact congrArg _ (onVector_illegal ((wf_one rfl).not.1 hne) _)
  | setBit va off => exact congrArg Host.Outcome.next (writeBucket_illegal ((wf_one rfl).not.1 hne) _ _ _)
  | unsetBit va off => exact congrArg Host.Outcome.next (writeBucket_illegal ((wf_one rfl).not.1 hne) _ _ _)
  | toggleBit va off => exact congrArg Host.Outcome.next (writeBucket_illegal ((wf_one rfl).not.1 hne) _ _ _)
  | count va => exact congrArg _ (onVector_illegal ((wf_one rfl).not.1 hne) _)
  | rdlen va => exact congrArg _ (onVector_illegal ((wf_one rfl).not.1 hne) _)
  | rdfix va => exact congrArg _ (onVector_illegal ((wf_one rfl).not.1 hne) _)
  | fill va imm => exact congrArg _ (onVector_illegal ((wf_one rfl).not.1 hne) _)
  | notV va => exact congrArg _ (onVector_illegal ((wf_one rfl).not.1 hne) _)
  | rdw va idx => exact congrArg _ (onVector_illegal ((wf_one rfl).not.1 hne) _)
  | wrw va idx d => exact congrArg Host.Outcome.next (writeBucket_illegal ((wf_one rfl).not.1 hne) _ _ _)

/-! ### Each command on vectors that exist -/

section equations
variable {s : State} {va vb : VIdx}

theorem exec_nop : exec .nop s = .next (s.finish statusOK 0#64) := rfl

theorem exec_init_unsized (ha : va.toNat < s.cfg.nv) (fm : FillMode) :
    exec (.init va none fm) s = .next ((s.setVec va VReg.empty).finish statusOK 0#64) :=
  congrArg _ (onVector_legal ha _)

theorem exec_init_size (ha : va.toNat < s.cfg.nv) (fm : FillMode) {n : Opnd} (h : s.cfg.nb * 32 < n.toNat) :
    exec (.init va (some n) fm) s = .next s.raiseSize :=
  congrArg _ ((onVector_legal ha _).trans (if_pos h))

theorem exec_init_sized (ha : va.toNat < s.cfg.nv) (fm : FillMode) {n : Opnd} (h : n.toNat ≤ s.cfg.nb * 32) :
    exec (.init va (some n) fm) s = .next ((s.setVec va (VReg.sized n.toNat fm)).finish statusOK 0#64) :=
  congrArg _ ((onVector_legal ha _).trans (if_neg (by omega)))

theorem exec_unfix (ha : va.toNat < s.cfg.nv) :
    exec (.unfix va) s =
      .next ((s.setVec va { s.vec va with fixed := false, cap := 0#38 }).finish statusOK 0#64) :=
  congrArg _ (onVector_legal ha _)

theorem exec_copy (ha : va.toNat < s.cfg.nv) (hb : vb.toNat < s.cfg.nv) :
    exec (.copy va vb) s = .next ((s.setVec va (s.vec vb)).finish statusOK 0#64) :=
  congrArg _ (onVectors_legal ha hb _)

theorem exec_testBit (ha : va.toNat < s.cfg.nv) (off : Opnd) :
    exec (.testBit va off) s =
      .next (s.finish statusOK ((BitVec.ofBool ((s.vec va).testedBit off)).zeroExtend 64)) :=
  congrArg _ (onVector_legal ha _)

theorem exec_count (ha : va.toNat < s.cfg.nv) :
    exec (.count va) s = .next (s.finish statusOK (BitVec.ofNat 64 (s.vec va).count)) :=
  congrArg _ (onVector_legal ha _)

theorem exec_rdlen (ha : va.toNat < s.cfg.nv) :
    exec (.rdlen va) s = .next (s.finish statusOK ((s.vec va).len.zeroExtend 64)) :=
  congrArg _ (onVector_legal ha _)

theorem exec_rdfix (ha : va.toNat < s.cfg.nv) :
    exec (.rdfix va) s = .next (s.finish statusOK ((BitVec.ofBool (s.vec va).fixed).zeroExtend 64)) :=
  congrArg _ (onVector_legal ha _)

theorem exec_fill (ha : va.toNat < s.cfg.nv) (imm : BitVec 8) :
    exec (.fill va imm) s =
      .next ((s.setVec va ((s.vec va).mapWords 0 (s.vec va).len.toNat fun _ _ => fillWord imm)).finish statusOK 0#64) :=
  congrArg _ (onVector_legal ha _)

theorem exec_notV (ha : va.toNat < s.cfg.nv) :
    exec (.notV va) s =
      .next ((s.setVec va ((s.vec va).mapWords 0 (s.vec va).len.toNat fun _ w => ~~~w)).finish statusOK 0#64) :=
  congrArg _ (onVector_legal ha _)

theorem exec_andV (ha : va.toNat < s.cfg.nv) (hb : vb.toNat < s.cfg.nv) :
    exec (.andV va vb) s = .next ((s.setVec va ((s.vec va).andWith (s.vec vb))).finish statusOK 0#64) :=
  congrArg _ (onVectors_legal ha hb _)

theorem exec_orV (ha : va.toNat < s.cfg.nv) (hb : vb.toNat < s.cfg.nv) :
    exec (.orV va vb) s =
      .next ((s.setVec va ((s.vec va).combine (s.vec vb) fun x y => x ||| y)).finish statusOK 0#64) :=
  congrArg _ (onVectors_legal ha hb _)

theorem exec_xorV (ha : va.toNat < s.cfg.nv) (hb : vb.toNat < s.cfg.nv) :
    exec (.xorV va vb) s =
      .next ((s.setVec va ((s.vec va).combine (s.vec vb) fun x y => x ^^^ y)).finish statusOK 0#64) :=
  congrArg _ (onVectors_legal ha hb _)

theorem exec_eqV (ha : va.toNat < s.cfg.nv) (hb : vb.toNat < s.cfg.nv) :
    exec (.eqV va vb) s =
      .next (s.finish statusOK ((BitVec.ofBool ((s.vec va).sameBits (s.vec vb))).zeroExtend 64)) :=
  congrArg _ (onVectors_legal ha hb _)

theorem exec_rdw (ha : va.toNat < s.cfg.nv) (idx : Opnd) :
    exec (.rdw va idx) s =
      .next (s.finish statusOK
        (if (s.vec va).len.toNat ≤ idx.toNat then 0#64 else ((s.vec va).word idx.toNat).zeroExtend 64)) :=
  congrArg _ (onVector_legal ha _)

end equations

/-- The commands that write through the write datapath (R122, R205): the receiver, the clamp, the bucket, the new word. -/
structure BucketWrite where
  va : VIdx
  clamp : VReg → Bool
  idx : Nat
  word : Word → Word

/-- SET, UNSET, TOGGLE and WRW as writes of one bucket. -/
def bucketWrite : Instr → Option BucketWrite
  | .setBit va off => some ⟨va, fun v => v.clamped off.toNat, bucketIndex off, fun w => w ||| bitMask (bitPosition off)⟩
  | .unsetBit va off =>
    some ⟨va, fun v => v.clamped off.toNat, bucketIndex off, fun w => w &&& ~~~(bitMask (bitPosition off))⟩
  | .toggleBit va off =>
    some ⟨va, fun v => v.clamped off.toNat, bucketIndex off, fun w => w ^^^ bitMask (bitPosition off)⟩
  | .wrw va idx d => some ⟨va, fun v => v.wordClamped idx.toNat, idx.toNat, fun _ => d⟩
  | _ => none

/-! ### The vectors a command can leave are well formed -/

theorem sized_wf {nb n : Nat} (hnb : nb ≤ 2 ^ 32) (h : n ≤ nb * 32) (fm : FillMode) : (VReg.sized n fm).Wf nb := by
  have hc := ceil32_le h
  have hd := ceil32_div_mul n
  have hlen : (VReg.sized n fm).len.toNat = ceil32 n / 32 := toNat_len_ofNat (by omega)
  have hcap : (VReg.sized n fm).cap.toNat = ceil32 n := toNat_cap_ofNat (by omega)
  exact
    { len_le := by rw [hlen]; omega
      fixed_cap := fun _ => by rw [hlen, hcap, hd]
      unfixed_cap := fun hf => by cases hf
      cap_le := by rw [hcap]; exact hc
      cap_mod := by rw [hcap]; exact ceil32_mod n
      canonical := Store.filled_wf _ _
      zero_beyond := fun i hi => by
        rw [hlen] at hi
        exact (Store.read_filled _ _ _).trans (if_neg (by omega)) }

theorem unfix_wf {nb : Nat} {v : VReg} (h : v.Wf nb) : VReg.Wf nb { v with fixed := false, cap := 0#38 } where
  len_le := h.len_le
  fixed_cap hf := by cases hf
  unfixed_cap _ := rfl
  cap_le := Nat.zero_le _
  cap_mod := rfl
  canonical := h.canonical
  zero_beyond := h.zero_beyond

/-! ### What a command can do -/

/-- The command ends without writing a vector: response `c`, `r`. -/
def EndsUnwritten (i : Instr) (s : State) : Prop := ∃ c r, c.toNat ≤ 3 ∧ exec i s = .next (s.finish c r)

/-- The command ends `OK`, result 0, having written its receiver, with a well-formed vector where it found well-formed ones. -/
def EndsWritten (i : Instr) (s : State) : Prop :=
  ∃ va v, i.receiver = some va ∧ va.toNat < s.cfg.nv ∧ exec i s = .next ((s.setVec va v).finish statusOK 0#64) ∧
    (s.Wf → v.Wf s.cfg.nb)

theorem writeBucket_cases {s : State} {va : VIdx} (ha : va.toNat < s.cfg.nv) (clamp : VReg → Bool) (idx : Nat)
    (f : Word → Word) (hclamp : ∀ nb v, VReg.Wf nb v → v.fixed = true → ¬ clamp v = true → idx < v.len.toNat) :
    (∃ c r, c.toNat ≤ 3 ∧ s.writeBucket va clamp idx f = s.finish c r) ∨
    ∃ v, s.writeBucket va clamp idx f = (s.setVec va v).finish statusOK 0#64 ∧ (s.Wf → v.Wf s.cfg.nb) := by
  by_cases hc : clamp (s.vec va) = true
  · exact .inl ⟨_, _, by decide, writeBucket_clamped ha hc⟩
  · cases he : (s.vec va).extend s.cfg.nb idx with
    | none =>
      refine .inl ⟨statusGROW, growResult (idx + 1), by decide, ?_⟩
      rw [State.writeBucket, onVector_legal ha, if_neg hc, he]
      rfl
    | some v' =>
      refine .inr ⟨v'.setWord idx (f (v'.word idx)), ?_, fun hs => ?_⟩
      · rw [State.writeBucket, onVector_legal ha, if_neg hc, he]
      · have hv := hs.vectors va ha
        have hin : idx < (s.vec va).len.toNat ∨ idx < s.cfg.nb := by
          by_contra hno
          rw [extend_grow (by omega) (by omega)] at he
          cases he
        obtain ⟨v'', he', hwf, hlen, -⟩ := extend_spec s.cfg.nb_le hv hin fun hf => hclamp _ _ hv hf hc
        rw [he'] at he
        cases he
        exact setWord_wf hwf (by omega) _

theorem bitClamp_lt (off : Opnd) (nb : Nat) (v : VReg) (h : v.Wf nb) (hf : v.fixed = true)
    (hc : ¬ v.clamped off.toNat = true) : bucketIndex off < v.len.toNat := by
  rw [bucketIndex_eq]; exact VRegWf.fixed_lt h hf hc

theorem wordClamp_lt (idx : Nat) (nb : Nat) (v : VReg) (h : v.Wf nb) (hf : v.fixed = true)
    (hc : ¬ v.wordClamped idx = true) : idx < v.len.toNat := VRegWf.word_fixed_lt h hf hc

theorem exec_cases (i : Instr) (s : State) : EndsUnwritten i s ∨ EndsWritten i s := by
  cases hwf : i.wf s.cfg with
  | false => exact .inl ⟨_, _, by decide, exec_illegal hwf⟩
  | true =>
    have unwritten : ∀ {c r u}, exec i s = .next u → u = s.finish c r → c.toNat ≤ 3 → EndsUnwritten i s ∨ EndsWritten i s :=
      fun {c r _} h hu hc => .inl ⟨c, r, hc, by rw [h, hu]⟩
    have written : ∀ {va v u}, exec i s = .next u → i.receiver = some va → va.toNat < s.cfg.nv →
        u = (s.setVec va v).finish statusOK 0#64 → (s.Wf → v.Wf s.cfg.nb) → EndsUnwritten i s ∨ EndsWritten i s :=
      fun {va v _} h hr ha hu hv => .inr ⟨va, v, hr, ha, by rw [h, hu], hv⟩
    have bucket : ∀ {va clamp idx f u}, exec i s = .next u → i.receiver = some va → va.toNat < s.cfg.nv →
        u = s.writeBucket va clamp idx f →
        (∀ nb v, VReg.Wf nb v → v.fixed = true → ¬ clamp v = true → idx < v.len.toNat) →
        EndsUnwritten i s ∨ EndsWritten i s := fun {va clamp idx f u} h hr ha hu hc => by
      rcases writeBucket_cases ha clamp idx f hc with ⟨c, r, hle, he⟩ | ⟨v, he, hv⟩
      · exact unwritten h (hu.trans he) hle
      · exact written h hr ha (hu.trans he) hv
    cases i with
    | nop => exact unwritten (c := statusOK) rfl rfl (by decide)
    | init va size fm =>
      have ha := (wf_one rfl).1 hwf
      cases size with
      | none => exact written rfl rfl ha (onVector_legal ha _) fun _ => VRegWf.empty _
      | some n =>
        by_cases hn : s.cfg.nb * 32 < n.toNat
        · exact unwritten (c := statusSIZE) rfl ((onVector_legal ha _).trans (if_pos hn)) (by decide)
        · exact written rfl rfl ha ((onVector_legal ha _).trans (if_neg hn)) fun _ =>
            sized_wf s.cfg.nb_le (by omega) fm
    | unfix va =>
      have ha := (wf_one rfl).1 hwf
      exact written rfl rfl ha (onVector_legal ha _) fun hs => unfix_wf (hs.vectors va ha)
    | copy va vb =>
      have hab := (wf_two rfl).1 hwf
      exact written rfl rfl hab.1 (onVectors_legal hab.1 hab.2 _) fun hs => hs.vectors vb hab.2
    | testBit va off => exact unwritten rfl (onVector_legal ((wf_one rfl).1 hwf) _) (by decide)
    | setBit va off => exact bucket rfl rfl ((wf_one rfl).1 hwf) rfl (bitClamp_lt off)
    | unsetBit va off => exact bucket rfl rfl ((wf_one rfl).1 hwf) rfl (bitClamp_lt off)
    | toggleBit va off => exact bucket rfl rfl ((wf_one rfl).1 hwf) rfl (bitClamp_lt off)
    | count va => exact unwritten rfl (onVector_legal ((wf_one rfl).1 hwf) _) (by decide)
    | rdlen va => exact unwritten rfl (onVector_legal ((wf_one rfl).1 hwf) _) (by decide)
    | rdfix va => exact unwritten rfl (onVector_legal ((wf_one rfl).1 hwf) _) (by decide)
    | fill va imm =>
      have ha := (wf_one rfl).1 hwf
      exact written rfl rfl ha (onVector_legal ha _) fun hs => mapWords_wf (hs.vectors va ha) le_rfl _
    | notV va =>
      have ha := (wf_one rfl).1 hwf
      exact written rfl rfl ha (onVector_legal ha _) fun hs => mapWords_wf (hs.vectors va ha) le_rfl _
    | andV va vb =>
      have hab := (wf_two rfl).1 hwf
      exact written rfl rfl hab.1 (onVectors_legal hab.1 hab.2 _) fun hs => andWith_wf (hs.vectors va hab.1) _
    | orV va vb =>
      have hab := (wf_two rfl).1 hwf
      exact written rfl rfl hab.1 (onVectors_legal hab.1 hab.2 _) fun hs => combine_wf (hs.vectors va hab.1) _ _
    | xorV va vb =>
      have hab := (wf_two rfl).1 hwf
      exact written rfl rfl hab.1 (onVectors_legal hab.1 hab.2 _) fun hs => combine_wf (hs.vectors va hab.1) _ _
    | eqV va vb =>
      have hab := (wf_two rfl).1 hwf
      exact unwritten rfl (onVectors_legal hab.1 hab.2 _) (by decide)
    | rdw va idx => exact unwritten rfl (onVector_legal ((wf_one rfl).1 hwf) _) (by decide)
    | wrw va idx d => exact bucket rfl rfl ((wf_one rfl).1 hwf) rfl (wordClamp_lt idx.toNat)

/-- Every command answers a next state (R206: there are no traps). -/
theorem exec_next (i : Instr) (s : State) : ∃ t, exec i s = .next t := by
  rcases exec_cases i s with ⟨c, r, -, h⟩ | ⟨va, v, -, -, h, -⟩
  · exact ⟨_, h⟩
  · exact ⟨_, h⟩

theorem setVec_finish_wf {s : State} (hs : s.Wf) {va : VIdx} (ha : va.toNat < s.cfg.nv) {v : VReg}
    (hv : v.Wf s.cfg.nb) : ((s.setVec va v).finish statusOK 0#64).Wf where
  vregs_length := by simpa using hs.vregs_length
  vectors a h := by
    by_cases hav : a = va
    · subst hav
      rw [finish_vec, setVec_vec_same _ _ _ (by rw [hs.vregs_length]; exact ha)]
      exact hv
    · rw [finish_vec, setVec_vec_other _ _ _ hav]
      exact hs.vectors a h
  status_le := by simp
  busy := hs.busy
  responding := hs.responding

theorem finish_wf {s : State} (hs : s.Wf) {c : BitVec 4} (hc : c.toNat ≤ 3) (r : BitVec 64) : (s.finish c r).Wf :=
  { hs with status_le := hc }

/-- Every command keeps the invariant. -/
theorem exec_wf {i : Instr} {s t : State} (hs : s.Wf) (h : exec i s = .next t) : t.Wf := by
  rcases exec_cases i s with ⟨c, r, hc, h'⟩ | ⟨va, v, -, ha, h', hv⟩
  · rw [h'] at h; cases h; exact finish_wf hs hc r
  · rw [h'] at h; cases h; exact setVec_finish_wf hs ha (hv hs)

theorem exec_cfg {i : Instr} {s t : State} (h : exec i s = .next t) : t.cfg = s.cfg := by
  rcases exec_cases i s with ⟨c, r, -, h'⟩ | ⟨va, v, -, -, h', -⟩ <;> (rw [h'] at h; cases h; rfl)

theorem exec_samePort {i : Instr} {s t : State} (h : exec i s = .next t) : s.SamePort t := by
  rcases exec_cases i s with ⟨c, r, -, h'⟩ | ⟨va, v, -, -, h', -⟩ <;>
    (rw [h'] at h; cases h; exact ⟨rfl, rfl, rfl, rfl, rfl, rfl, rfl⟩)

/-- A vector that is not the receiver is as before (R21, R40). -/
theorem exec_vec_other {i : Instr} {s t : State} (h : exec i s = .next t) {b : VIdx} (hb : i.receiver ≠ some b) :
    t.vec b = s.vec b := by
  rcases exec_cases i s with ⟨c, r, -, h'⟩ | ⟨va, v, hr, -, h', -⟩
  · rw [h'] at h; cases h; rfl
  · rw [h'] at h; cases h
    exact setVec_vec_other s va v fun e => hb (e ▸ hr)

theorem exec_vregs_length {i : Instr} {s t : State} (h : exec i s = .next t) : t.vregs.length = s.vregs.length := by
  rcases exec_cases i s with ⟨c, r, -, h'⟩ | ⟨va, v, -, -, h', -⟩ <;> (rw [h'] at h; cases h; simp)

/-- A legal vector of a well-formed state can be written. -/
theorem vec_lt {s : State} (hs : s.Wf) {a : VIdx} (ha : a.toNat < s.cfg.nv) : a.toNat < s.vregs.length := by
  rw [hs.vregs_length]; exact ha

theorem written_vec {s : State} (hs : s.Wf) {a : VIdx} (ha : a.toNat < s.cfg.nv) (v : VReg) (c : BitVec 4)
    (r : BitVec 64) : ((s.setVec a v).finish c r).vec a = v := by
  rw [finish_vec, setVec_vec_same _ _ _ (vec_lt hs ha)]

/-- `Answers` from the state a command ends in. -/
theorem answers_of_exec {i : Instr} {s : State} {c : BitVec 4} {r : BitVec 64} (h : exec i s = .next (s.finish c r)) :
    Answers i s c r := ⟨_, h, ends_finish s c r []⟩

/-- `Answers` says what the response is. -/
theorem Answers.response {i : Instr} {s t : State} {c : BitVec 4} {r : BitVec 64} (h : Answers i s c r)
    (ht : exec i s = .next t) : t.status = c ∧ t.result = r := by
  obtain ⟨u, hu, he⟩ := h
  rw [hu] at ht; cases ht
  exact ⟨he.status, he.result⟩

/-! ### The bits of a bucket after SET, UNSET, TOGGLE -/

/-- A change of one bit of one bucket, seen through the bit space (R43, R44). -/
theorem bit_of_words {v v' : VReg} {off : Opnd} {f : Word → Word → Word} {new : Bool → Bool}
    (hf : ∀ w m : Word, ∀ j < 32, (f w m).getLsbD j = if m.getLsbD j then new (w.getLsbD j) else w.getLsbD j)
    (hw : ∀ i, v'.word i =
      if i = bucketIndex off then f (v.word (bucketIndex off)) (bitMask (bitPosition off)) else v.word i) (k : Nat) :
    v'.bit k = if k = off.toNat then new (v.bit k) else v.bit k := by
  have hk := Nat.mod_lt k (by decide : 0 < 32)
  rw [VReg.bit, VReg.bit, hw, bucketIndex_eq, bitPosition_eq]
  by_cases hi : k / 32 = off.toNat / 32
  · rw [if_pos hi, hf _ _ _ hk, bitMask_getLsbD hk, hi]
    by_cases hp : k % 32 = off.toNat % 32
    · have : k = off.toNat := by omega
      simp [this]
    · have : k ≠ off.toNat := fun h => hp (by rw [h])
      simp [this, hp]
  · have : k ≠ off.toNat := fun h => hi (by rw [h])
    simp [hi, this]

theorem set_bits (w m : Word) : ∀ j < 32, (w ||| m).getLsbD j = if m.getLsbD j then true else w.getLsbD j := by
  intro j _
  rw [BitVec.getLsbD_or]
  cases m.getLsbD j <;> simp

theorem unset_bits (w m : Word) : ∀ j < 32, (w &&& ~~~m).getLsbD j = if m.getLsbD j then false else w.getLsbD j := by
  intro j hj
  rw [BitVec.getLsbD_and, BitVec.getLsbD_not]
  cases m.getLsbD j <;> simp [hj]

theorem toggle_bits (w m : Word) : ∀ j < 32, (w ^^^ m).getLsbD j = if m.getLsbD j then !w.getLsbD j else w.getLsbD j := by
  intro j _
  rw [BitVec.getLsbD_xor]
  cases m.getLsbD j <;> simp

/-! ### One bucket written -/

theorem exec_bucketWrite {i : Instr} {b : BucketWrite} (h : bucketWrite i = some b) (s : State) :
    exec i s = .next (s.writeBucket b.va b.clamp b.idx b.word) := by
  cases i <;> simp only [bucketWrite, Option.some.injEq, reduceCtorEq] at h <;> subst h <;> rfl

theorem bucketWrite_fixed {i : Instr} {b : BucketWrite} (h : bucketWrite i = some b) {v : VReg}
    (hc : b.clamp v = true) : v.fixed = true := by
  cases i <;> simp only [bucketWrite, Option.some.injEq, reduceCtorEq] at h <;> subst h <;>
    first
    | exact (clamped_iff.1 hc).1
    | exact (wordClamped_iff.1 hc).1

theorem bucketWrite_lt {i : Instr} {b : BucketWrite} (h : bucketWrite i = some b) {nb : Nat} {v : VReg} (hv : v.Wf nb)
    (hf : v.fixed = true) (hc : ¬ b.clamp v = true) : b.idx < v.len.toNat := by
  cases i <;> simp only [bucketWrite, Option.some.injEq, reduceCtorEq] at h <;> subst h <;>
    first
    | exact bitClamp_lt _ _ _ hv hf hc
    | exact wordClamp_lt _ _ _ hv hf hc

/-- What a write of one bucket does: clamped, nothing; beyond storage, GROW; else the bucket is written, the length covers
it, and everything else of the vector is as before. -/
theorem exec_bucketWrite_cases {i : Instr} {b : BucketWrite} (h : bucketWrite i = some b) {s : State} (hs : s.Wf)
    (ha : b.va.toNat < s.cfg.nv) :
    (b.clamp (s.vec b.va) = true ∧ exec i s = .next (s.finish statusOK 0#64)) ∨
    (¬ b.clamp (s.vec b.va) = true ∧ (s.vec b.va).fixed = false ∧ s.cfg.nb ≤ b.idx ∧
      exec i s = .next (s.raiseGrow (b.idx + 1))) ∨
    (¬ b.clamp (s.vec b.va) = true ∧ b.idx < s.cfg.nb ∧
      ∃ v, exec i s = .next ((s.setVec b.va v).finish statusOK 0#64) ∧ v.Wf s.cfg.nb ∧
        v.len.toNat = max (s.vec b.va).len.toNat (b.idx + 1) ∧ v.fixed = (s.vec b.va).fixed ∧
        v.cap = (s.vec b.va).cap ∧
        ∀ k, v.word k = if k = b.idx then b.word ((s.vec b.va).word b.idx) else (s.vec b.va).word k) := by
  have hv := hs.vectors _ ha
  have hle := hv.len_le
  have hex := exec_bucketWrite h s
  by_cases hc : b.clamp (s.vec b.va) = true
  · exact .inl ⟨hc, by rw [hex, writeBucket_clamped ha hc]⟩
  · by_cases hnb : b.idx < s.cfg.nb
    · obtain ⟨v, he, hrest⟩ := writeBucket_write (f := b.word) ha hv hc (.inr hnb) fun hf => bucketWrite_lt h hv hf hc
      exact .inr (.inr ⟨hc, hnb, v, by rw [hex, he], hrest⟩)
    · refine .inr (.inl ⟨hc, ?_, by omega, by rw [hex, writeBucket_grow ha hc (by omega) (by omega)]⟩)
      cases hf : (s.vec b.va).fixed with
      | false => rfl
      | true => exact absurd (bucketWrite_lt h hv hf hc) (by omega)

/-- Two next states of one command are one. -/
theorem exec_unique {i : Instr} {s t u : State} (h : exec i s = .next t) (h' : exec i s = .next u) : t = u := by
  rw [h] at h'; cases h'; rfl

/-- Writing a vector back changes nothing. -/
theorem setVec_self {s : State} (hs : s.Wf) {a : VIdx} (ha : a.toNat < s.cfg.nv) : s.setVec a (s.vec a) = s := by
  have hset : s.vregs.set a.toNat (s.vregs.getD a.toNat VReg.empty) = s.vregs := by
    rw [List.getD_eq_getElem?_getD, List.getElem?_eq_getElem (vec_lt hs ha)]
    simp
  simp only [State.setVec, State.vec, hset]

end Sys2Proof.Machine
end

