-- ==== Sys2Proof/Laws/PerInstr.lean ====
section
/-! SUPPORT. The family EncodesInRow of LAWS.json: the word a command is encoded to is found in the command's own row of the
opcode table (spec/30_encoding.md R67, R68), one lemma per constructor. -/

namespace Sys2Proof.Laws.EncodesInRow

/-- The row of R68 a command belongs to. -/
def rowOf : Instr → Row
  | .nop => ⟨.nop, 0xFFFFFFFF, 0x00000000⟩
  | .init _ _ _ => ⟨.init, 0xFF0FFFF8, 0x01000000⟩
  | .unfix _ => ⟨.unfix, 0xFF0FFFFF, 0x02000000⟩
  | .copy _ _ => ⟨.copy, 0xFF00FFFF, 0x03000000⟩
  | .testBit _ _ => ⟨.test, 0xFF0FFFFF, 0x08000000⟩
  | .setBit _ _ => ⟨.set, 0xFF0FFFFF, 0x09000000⟩
  | .unsetBit _ _ => ⟨.unset, 0xFF0FFFFF, 0x0A000000⟩
  | .toggleBit _ _ => ⟨.toggle, 0xFF0FFFFF, 0x0B000000⟩
  | .count _ => ⟨.count, 0xFF0FFFFF, 0x0C000000⟩
  | .rdlen _ => ⟨.rdlen, 0xFF0FFFFF, 0x0D000000⟩
  | .rdfix _ => ⟨.rdfix, 0xFF0FFFFF, 0x0E000000⟩
  | .fill _ _ => ⟨.fill, 0xFF0FFF00, 0x10000000⟩
  | .notV _ => ⟨.not, 0xFF0FFFFF, 0x11000000⟩
  | .andV _ _ => ⟨.and, 0xFF00FFFF, 0x12000000⟩
  | .orV _ _ => ⟨.or, 0xFF00FFFF, 0x13000000⟩
  | .xorV _ _ => ⟨.xor, 0xFF00FFFF, 0x14000000⟩
  | .eqV _ _ => ⟨.eq, 0xFF00FFFF, 0x18000000⟩
  | .rdw _ _ => ⟨.rdw, 0xFF0FFFFF, 0x20000000⟩
  | .wrw _ _ _ => ⟨.wrw, 0xFF0FFFFF, 0x21000000⟩

/-- The search of R67 finds the command's own row, and no other, for the word it is encoded to. -/
def Statement (i : Instr) : Prop := opcodeTable.find? (fun r => r.hits (encode i).cmd) = some (rowOf i)

theorem rowOf_mem (i : Instr) : rowOf i ∈ opcodeTable := by
  cases i <;> (dsimp only [rowOf]; decide)

theorem of_hits {i : Instr} (h : (rowOf i).hits (encode i).cmd = true) : Statement i := find_row (rowOf_mem i) h

theorem nop : Statement .nop := of_hits (by decide)

theorem init (va : VIdx) (size : Option Opnd) (fm : FillMode) : Statement (.init va size fm) := by
  have h : ∀ (sized : Bool) (va : VIdx),
      Row.hits ⟨.init, 0xFF0FFFF8, 0x01000000⟩ (commandWord 0x01 va 0 (initImm sized fm)) = true := by
    cases fm <;> decide
  cases size with
  | none => exact of_hits (h false va)
  | some n => exact of_hits (h true va)

theorem unfix (va : VIdx) : Statement (.unfix va) :=
  of_hits ((by decide : ∀ va : VIdx, Row.hits ⟨.unfix, 0xFF0FFFFF, 0x02000000⟩ (commandWord 0x02 va 0 0) = true) va)

theorem copy (va vb : VIdx) : Statement (.copy va vb) :=
  of_hits ((by decide : ∀ va vb : VIdx, Row.hits ⟨.copy, 0xFF00FFFF, 0x03000000⟩ (commandWord 0x03 va vb 0) = true) va vb)

theorem testBit (va : VIdx) (off : Opnd) : Statement (.testBit va off) :=
  of_hits ((by decide : ∀ va : VIdx, Row.hits ⟨.test, 0xFF0FFFFF, 0x08000000⟩ (commandWord 0x08 va 0 0) = true) va)

theorem setBit (va : VIdx) (off : Opnd) : Statement (.setBit va off) :=
  of_hits ((by decide : ∀ va : VIdx, Row.hits ⟨.set, 0xFF0FFFFF, 0x09000000⟩ (commandWord 0x09 va 0 0) = true) va)

theorem unsetBit (va : VIdx) (off : Opnd) : Statement (.unsetBit va off) :=
  of_hits ((by decide : ∀ va : VIdx, Row.hits ⟨.unset, 0xFF0FFFFF, 0x0A000000⟩ (commandWord 0x0A va 0 0) = true) va)

theorem toggleBit (va : VIdx) (off : Opnd) : Statement (.toggleBit va off) :=
  of_hits ((by decide : ∀ va : VIdx, Row.hits ⟨.toggle, 0xFF0FFFFF, 0x0B000000⟩ (commandWord 0x0B va 0 0) = true) va)

theorem count (va : VIdx) : Statement (.count va) :=
  of_hits ((by decide : ∀ va : VIdx, Row.hits ⟨.count, 0xFF0FFFFF, 0x0C000000⟩ (commandWord 0x0C va 0 0) = true) va)

theorem rdlen (va : VIdx) : Statement (.rdlen va) :=
  of_hits ((by decide : ∀ va : VIdx, Row.hits ⟨.rdlen, 0xFF0FFFFF, 0x0D000000⟩ (commandWord 0x0D va 0 0) = true) va)

theorem rdfix (va : VIdx) : Statement (.rdfix va) :=
  of_hits ((by decide : ∀ va : VIdx, Row.hits ⟨.rdfix, 0xFF0FFFFF, 0x0E000000⟩ (commandWord 0x0E va 0 0) = true) va)

theorem fill (va : VIdx) (imm : BitVec 8) : Statement (.fill va imm) :=
  of_hits ((by decide : ∀ (va : VIdx) (imm : BitVec 8), Row.hits ⟨.fill, 0xFF0FFF00, 0x10000000⟩ (commandWord 0x10 va 0 imm) = true) va imm)

theorem notV (va : VIdx) : Statement (.notV va) :=
  of_hits ((by decide : ∀ va : VIdx, Row.hits ⟨.not, 0xFF0FFFFF, 0x11000000⟩ (commandWord 0x11 va 0 0) = true) va)

theorem andV (va vb : VIdx) : Statement (.andV va vb) :=
  of_hits ((by decide : ∀ va vb : VIdx, Row.hits ⟨.and, 0xFF00FFFF, 0x12000000⟩ (commandWord 0x12 va vb 0) = true) va vb)

theorem orV (va vb : VIdx) : Statement (.orV va vb) :=
  of_hits ((by decide : ∀ va vb : VIdx, Row.hits ⟨.or, 0xFF00FFFF, 0x13000000⟩ (commandWord 0x13 va vb 0) = true) va vb)

theorem xorV (va vb : VIdx) : Statement (.xorV va vb) :=
  of_hits ((by decide : ∀ va vb : VIdx, Row.hits ⟨.xor, 0xFF00FFFF, 0x14000000⟩ (commandWord 0x14 va vb 0) = true) va vb)

theorem eqV (va vb : VIdx) : Statement (.eqV va vb) :=
  of_hits ((by decide : ∀ va vb : VIdx, Row.hits ⟨.eq, 0xFF00FFFF, 0x18000000⟩ (commandWord 0x18 va vb 0) = true) va vb)

theorem rdw (va : VIdx) (idx : Opnd) : Statement (.rdw va idx) :=
  of_hits ((by decide : ∀ va : VIdx, Row.hits ⟨.rdw, 0xFF0FFFFF, 0x20000000⟩ (commandWord 0x20 va 0 0) = true) va)

theorem wrw (va : VIdx) (idx : Opnd) (data : Word) : Statement (.wrw va idx data) :=
  of_hits ((by decide : ∀ va : VIdx, Row.hits ⟨.wrw, 0xFF0FFFFF, 0x21000000⟩ (commandWord 0x21 va 0 0) = true) va)

/-- The family, for every command. -/
theorem every (i : Instr) : Statement i := by
  cases i with
  | nop => exact nop
  | init va size fm => exact init va size fm
  | unfix va => exact unfix va
  | copy va vb => exact copy va vb
  | testBit va off => exact testBit va off
  | setBit va off => exact setBit va off
  | unsetBit va off => exact unsetBit va off
  | toggleBit va off => exact toggleBit va off
  | count va => exact count va
  | rdlen va => exact rdlen va
  | rdfix va => exact rdfix va
  | fill va imm => exact fill va imm
  | notV va => exact notV va
  | andV va vb => exact andV va vb
  | orV va vb => exact orV va vb
  | xorV va vb => exact xorV va vb
  | eqV va vb => exact eqV va vb
  | rdw va idx => exact rdw va idx
  | wrw va idx data => exact wrw va idx data

end Sys2Proof.Laws.EncodesInRow
end

