-- ==== Sys2Proof/Laws/Step.lean ====
section
/-! SUPPORT. What one step can do, once (`step_cases`), for the proofs about the port. -/

namespace Sys2Proof.Machine

/-! ### The edge that comes next -/

theorem nextEdge_cons {s : State} {e : Edge} {rest : List Edge} (h : s.edges = e :: rest) : s.nextEdge = e := by
  simp [State.nextEdge, h]

theorem nextEdge_nil {s : State} (h : s.edges = []) :
    s.nextEdge = ⟨false, false, ⟨0#32, 0#64, 0#32⟩, Config.idleDone s.idleEdges, Config.idleReady s.idleEdges⟩ := by
  simp [State.nextEdge, h]

theorem dropEdge_cons {s : State} {e : Edge} {rest : List Edge} (h : s.edges = e :: rest) :
    s.dropEdge = { s with edges := rest } := by
  simp [State.dropEdge, h]

theorem dropEdge_nil {s : State} (h : s.edges = []) : s.dropEdge = { s with idleEdges := s.idleEdges + 1 } := by
  simp [State.dropEdge, h]

/-! ### What a step can do -/

/-- A completion always answers: the decoded command's effect, or `ILLEGAL` (R206). -/
theorem perform_next (c : Command) (s : State) : ∃ t, perform c s = .next t := by
  unfold perform
  split
  · exact exec_next _ _
  · exact ⟨_, rfl⟩

theorem perform_wf {c : Command} {s t : State} (hs : s.Wf) (h : perform c s = .next t) : t.Wf := by
  unfold perform at h
  split at h
  · exact exec_wf hs h
  · cases h; exact finish_wf hs (by decide) _

theorem perform_cfg {c : Command} {s t : State} (h : perform c s = .next t) : t.cfg = s.cfg := by
  unfold perform at h
  split at h
  · exact exec_cfg h
  · cases h; rfl

/-- The state a command completes in, or stays in flight in, at the next edge. -/
def State.atEdge (s : State) : State := { s.dropEdge with offered := s.holding s.nextEdge }

/-- The four ways a step answers: a reset edge; a completion; a command in flight; an idle port. -/
theorem step_cases {s t : State} (h : step s = .next t) :
    (s.nextEdge.rst = true ∧ s.nextEdge.cmdValid = false ∧
      t = State.resetOf s.cfg s.nextEdge.ready s.dropEdge.edges s.dropEdge.idleEdges) ∨
    (s.nextEdge.rst = false ∧ s.breaksHold s.nextEdge = false ∧
      ((∃ c u, s.pending s.nextEdge = some c ∧ s.nextEdge.done = true ∧ perform c s.atEdge = .next u ∧ t = u.respond) ∨
       (∃ c, s.pending s.nextEdge = some c ∧ s.nextEdge.done = false ∧ t = s.atEdge.stayBusy c) ∨
       (s.pending s.nextEdge = none ∧ t = s.atEdge.idle s.nextEdge.ready))) := by
  simp only [step, clockEdge] at h
  cases hr : s.nextEdge.rst with
  | true =>
    rw [hr, if_pos rfl] at h
    cases hv : s.nextEdge.cmdValid with
    | true => rw [hv, if_pos rfl] at h; cases h
    | false => rw [hv, if_neg (by simp)] at h; cases h; exact .inl ⟨rfl, rfl, by simp⟩
  | false =>
    rw [hr, if_neg (by simp)] at h
    cases hb : s.breaksHold s.nextEdge with
    | true => rw [hb, if_pos rfl] at h; cases h
    | false =>
      rw [hb, if_neg (by simp)] at h
      refine .inr ⟨rfl, rfl, ?_⟩
      cases hp : s.pending s.nextEdge with
      | none => rw [hp] at h; cases h; exact .inr (.inr ⟨rfl, rfl⟩)
      | some c =>
        rw [hp] at h
        cases hd : s.nextEdge.done with
        | false => simp only [hd] at h; cases h; exact .inr (.inl ⟨c, rfl, rfl, rfl⟩)
        | true =>
          simp only [hd, if_true, complete] at h
          obtain ⟨u, hu⟩ := perform_next c s.atEdge
          rw [show { s.dropEdge with offered := s.holding s.nextEdge } = s.atEdge from rfl, hu] at h
          cases h
          exact .inl ⟨c, u, rfl, rfl, hu, rfl⟩

/-- The pending command was in flight, or is accepted at this edge. -/
theorem pending_cases {s : State} {e : Edge} {c : Command} (h : s.pending e = some c) :
    s.inFlight = some c ∨ (s.inFlight = none ∧ s.cmdReady = true ∧ e.cmdValid = true ∧ e.cmd = c) := by
  unfold State.pending at h
  split at h
  · next ha =>
    simp [State.accepts] at ha
    cases h
    exact .inr ⟨ha.2, ha.1.2, ha.1.1.2, rfl⟩
  · exact .inl h

/-- A lawful edge without reset and without a pending command leaves the port idle. -/
theorem step_idle {s : State} (hr : s.nextEdge.rst = false) (hb : s.breaksHold s.nextEdge = false)
    (hp : s.pending s.nextEdge = none) : step s = .next (s.atEdge.idle s.nextEdge.ready) := by
  simp only [step, clockEdge, hr, hb, hp, Bool.false_eq_true, if_false]
  rfl

@[simp] theorem atEdge_cfg (s : State) : s.atEdge.cfg = s.cfg := by simp [State.atEdge]
@[simp] theorem atEdge_vregs (s : State) : s.atEdge.vregs = s.vregs := by simp [State.atEdge]
@[simp] theorem atEdge_result (s : State) : s.atEdge.result = s.result := by simp [State.atEdge]
@[simp] theorem atEdge_status (s : State) : s.atEdge.status = s.status := by simp [State.atEdge]
@[simp] theorem atEdge_inFlight (s : State) : s.atEdge.inFlight = s.inFlight := by simp [State.atEdge]
@[simp] theorem atEdge_cmdReady (s : State) : s.atEdge.cmdReady = s.cmdReady := by simp [State.atEdge]
@[simp] theorem atEdge_rspValid (s : State) : s.atEdge.rspValid = s.rspValid := by simp [State.atEdge]
@[simp] theorem atEdge_vec (s : State) (a : VIdx) : s.atEdge.vec a = s.vec a := by simp [State.vec]

theorem atEdge_wf {s : State} (h : s.Wf) : s.atEdge.Wf where
  vregs_length := by simpa using h.vregs_length
  vectors a ha := by simpa using h.vectors a (by simpa using ha)
  status_le := by simpa using h.status_le
  busy c hc := by simpa using h.busy c (by simpa using hc)
  responding hv := by simpa using h.responding (by simpa using hv)

end Sys2Proof.Machine
end

