-- ==== Sys2Proof/Laws/Wf.lean ====
section
/-! SUPPORT. The invariants as Bool checks that `decide` can run on one concrete state, for the witnesses of the tests. -/

namespace Sys2Proof.Machine

/-- `VReg.Wf` on a vector written out. -/
def VReg.check (nb : Nat) (v : VReg) : Bool :=
  decide (v.len.toNat ≤ nb) && decide (v.cap.toNat = if v.fixed then v.len.toNat * 32 else 0) && v.buckets.wf &&
    v.buckets.all fun p => decide (p.1 < v.len.toNat)

/-- `State.Wf` on a state written out. -/
def State.check (s : State) : Bool :=
  decide (s.vregs.length = s.cfg.nv) && s.vregs.all (fun v => v.check s.cfg.nb) && decide (s.status.toNat ≤ 3) &&
    !(s.inFlight.isSome && s.cmdReady) && !(s.inFlight.isSome && s.rspValid) && !(s.rspValid && s.cmdReady)

theorem Store.read_beyond {st : Store} {n i : Nat} (h : st.all (fun p => decide (p.1 < n)) = true) (hi : n ≤ i) :
    st.read i = 0#32 := by
  induction st with
  | nil => rfl
  | cons p rest ih =>
    rw [List.all_cons, Bool.and_eq_true, decide_eq_true_eq] at h
    obtain ⟨j, w⟩ := p
    rw [Store.read, if_neg (by have := h.1; dsimp only at this; omega)]
    exact ih h.2

theorem VReg.wf_of_check {nb : Nat} {v : VReg} (h : v.check nb = true) : v.Wf nb := by
  simp only [VReg.check, Bool.and_eq_true, decide_eq_true_eq] at h
  obtain ⟨⟨⟨hl, hc⟩, hw⟩, hb⟩ := h
  have hcap : v.cap.toNat = v.len.toNat * 32 ∨ v.cap.toNat = 0 := by
    cases hf : v.fixed <;> rw [hf] at hc
    · exact .inr hc
    · exact .inl hc
  exact
    { len_le := hl
      fixed_cap := fun hf => by rw [hc, if_pos hf]
      unfixed_cap := fun hf => BitVec.eq_of_toNat_eq (by rw [hc, hf]; rfl)
      cap_le := by omega
      cap_mod := by omega
      canonical := hw
      zero_beyond := fun i hi => Store.read_beyond hb hi }

theorem State.wf_of_check {s : State} (h : s.check = true) : s.Wf := by
  simp only [State.check, Bool.and_eq_true, decide_eq_true_eq, Bool.not_eq_true', List.all_eq_true] at h
  obtain ⟨⟨⟨⟨⟨hl, hv⟩, hst⟩, h1⟩, h2⟩, h3⟩ := h
  exact
    { vregs_length := hl
      vectors := fun a ha => VReg.wf_of_check (hv _ (by
        have hlt : a.toNat < s.vregs.length := by omega
        rw [State.vec, List.getD_eq_getElem?_getD, List.getElem?_eq_getElem hlt, Option.getD_some]
        exact List.getElem_mem hlt))
      status_le := hst
      busy := fun c hc => by rw [hc] at h1 h2; exact ⟨by simpa using h1, by simpa using h2⟩
      responding := fun hr => by rw [hr] at h3; simpa using h3 }

end Sys2Proof.Machine
end

