-- ==== Sys2Proof/Tests/Slice0.lean ====
section
/-! SUPPORT. The model's own tests. Expected values are those of spec/95_test_vectors.md (the id in each comment) or of the
rules' examples, never the model's own answers. After them, for each statement of Certificates/Slice0/Obligations.lean that has
hypotheses, `witness_<Name>`: a concrete state and operands that meet them together, clause by clause, at the boundaries. -/

namespace Sys2Proof.Machine.Tests

/-! ### Well-formedness: an ill-formed term for each check -/

/-- D-CON-14: `INIT v5` names no vector of `NV = 4`. -/
theorem test_wf_refuses_va : (Instr.init 5 none .absent).wf Config.testVectors = false := by decide

/-- D-WP-16: `AND v0, v5` names no second vector of `NV = 4`. -/
theorem test_wf_refuses_vb : (Instr.andV 0 5).wf Config.testVectors = false := by decide

theorem test_wf_accepts : (Instr.andV 0 3).wf Config.testVectors = true := by decide

/-! ### Decoding: one word of each row, written out from R68 and the examples -/

def word (cmd : BitVec 32) : Command := ⟨cmd, 5#64, 7#32⟩

theorem test_decode_nop : decode (word 0x00000000) = .ok .nop := by decide
theorem test_decode_init_unsized : decode (word 0x01100004) = .ok (.init 1 none .ones) := by decide
theorem test_decode_init_sized : decode (word 0x01000003) = .ok (.init 0 (some 5) .zeros) := by decide
theorem test_decode_unfix : decode (word 0x02200000) = .ok (.unfix 2) := by decide
theorem test_decode_copy : decode (word 0x03210000) = .ok (.copy 2 1) := by decide
theorem test_decode_test : decode (word 0x08300000) = .ok (.testBit 3 5) := by decide
theorem test_decode_set : decode (word 0x09100000) = .ok (.setBit 1 5) := by decide
theorem test_decode_unset : decode (word 0x0A000000) = .ok (.unsetBit 0 5) := by decide
theorem test_decode_toggle : decode (word 0x0B300000) = .ok (.toggleBit 3 5) := by decide
theorem test_decode_count : decode (word 0x0C200000) = .ok (.count 2) := by decide
theorem test_decode_rdlen : decode (word 0x0D100000) = .ok (.rdlen 1) := by decide
theorem test_decode_rdfix : decode (word 0x0E100000) = .ok (.rdfix 1) := by decide
theorem test_decode_fill : decode (word 0x10000080) = .ok (.fill 0 0x80) := by decide
theorem test_decode_not : decode (word 0x11F00000) = .ok (.notV 15) := by decide
theorem test_decode_and : decode (word 0x12210000) = .ok (.andV 2 1) := by decide
theorem test_decode_or : decode (word 0x13310000) = .ok (.orV 3 1) := by decide
theorem test_decode_xor : decode (word 0x14010000) = .ok (.xorV 0 1) := by decide
theorem test_decode_eq : decode (word 0x18230000) = .ok (.eqV 2 3) := by decide
theorem test_decode_rdw : decode (word 0x20000000) = .ok (.rdw 0 5) := by decide
theorem test_decode_wrw : decode (word 0x21100000) = .ok (.wrw 1 5 7) := by decide

/-- D-CON-2, D-CON-11, D-BIT-14, D-ST-4. -/
theorem test_decode_reserved_bits :
    [0x00100000, 0x01000008, 0x08010000, 0x08000100].map (fun w => decode (word w)) =
      List.replicate 4 (.error .reservedBits) := by decide

/-- D-ST-1 to D-ST-3. -/
theorem test_decode_reserved_opcode :
    [0x04000000, 0x0F000000, 0xFF000000].map (fun w => decode (word w)) =
      List.replicate 3 (.error .reservedOpcode) := by decide

/-- D-CON-10: `INIT` with `FM = 11`. -/
theorem test_decode_reserved_fill_mode : decode (word 0x01000007) = .error .reservedFillMode := by decide

/-- R74: `SET v1, #10` is `0x09100000 / 10 / 0`. -/
theorem test_encode_set : encode (.setBit 1 10) = ⟨0x09100000, 10, 0⟩ := by decide

/-! ### One command at one edge -/

/-- A vector `{LEN, FIXED, CAP, [W0, W1, ...]}` as spec/95_test_vectors.md writes it. -/
def vector (fixed : Bool) (cap : Nat) (ws : List Word) : VReg :=
  ⟨(ws.zipIdx.map fun p => (p.2, p.1)).filter fun p => p.2 != 0, BitVec.ofNat 33 ws.length, fixed, BitVec.ofNat 38 cap⟩

/-- A reset block of `NV = 4`, `NB = 64` whose first vectors are `vs`. -/
def block (vs : List VReg) : State :=
  { State.reset with vregs := vs ++ List.replicate (4 - vs.length) VReg.empty }

/-- The response and the vector `a` after the command is presented, accepted and completed in one step. -/
def response (a : VIdx) (s : State) (c : Command) : Option (Nat × Nat × VReg) :=
  match step (s.present c) with
  | .next t => if t.rspValid then some (t.status.toNat, t.result.toNat, t.vec a) else none
  | .fault _ => none
  | .refused _ => none

def full : VReg := vector false 0 [0xFFFF0000, 0x12345678, 0xFFFFFFFF]
def short : VReg := vector false 0 [0x0F0F0F0F]

/-- D-CON-1. -/
theorem test_nop : response 0 (block [full]) ⟨0x00000000, 9, 9⟩ = some (0, 0, full) := by decide

/-- D-CON-5. -/
theorem test_init_rounds_up_and_fills :
    response 0 (block [full]) ⟨0x01000005, 1, 0⟩ = some (0, 0, vector true 32 [0xFFFFFFFF]) := by decide

/-- D-CON-9. -/
theorem test_init_size : response 0 (block [full]) ⟨0x01000001, 2049, 0⟩ = some (3, 0, full) := by decide

/-- D-CON-13. -/
theorem test_unfix :
    response 2 (block [full, short, vector true 64 [0, 0]]) ⟨0x02200000, 0, 0⟩ =
      some (0, 0, vector false 0 [0, 0]) := by decide

/-- D-CON-14: `VA >= NV` is ILLEGAL. -/
theorem test_vector_index_illegal : response 0 (block [full]) ⟨0x01500000, 0, 0⟩ = some (1, 0, full) := by decide

/-- D-COPY-2. -/
theorem test_copy :
    response 0 (block [vector false 0 [7, 8, 9], vector false 0 [5]]) ⟨0x03010000, 0, 0⟩ =
      some (0, 0, vector false 0 [5]) := by decide

/-- D-W-2's `TEST v0, #64`. -/
theorem test_test : response 0 (block [vector false 0 [0, 0, 0xDEADBEEF]]) ⟨0x08000000, 64, 0⟩ =
    some (0, 1, vector false 0 [0, 0, 0xDEADBEEF]) := by decide

/-- L1-6: `TEST v1, #1024` on capacity 1024. -/
theorem test_test_clamped : (response 1 (block [full, vector true 1024 (List.replicate 32 0xFFFFFFFF)])
    ⟨0x08100000, 1024, 0⟩).map (fun p => (p.1, p.2.1)) = some (0, 0) := by decide

/-- D-BIT-4. -/
theorem test_set_extends : response 0 (block [vector false 0 [0x80000001]]) ⟨0x09000000, 32, 0⟩ =
    some (0, 0, vector false 0 [0x80000001, 0x00000001]) := by decide

/-- D-BIT-11: the offset is never truncated. -/
theorem test_set_grow : response 0 (block []) ⟨0x09000000, 18446744073709551615, 0⟩ =
    some (2, 576460752303423488, VReg.empty) := by decide

/-- D-BIT-5. -/
theorem test_unset_extends : response 0 (block []) ⟨0x0A000000, 40, 0⟩ = some (0, 0, vector false 0 [0, 0]) := by
  decide

/-- L1-2, step 3. -/
theorem test_unset_clears : response 0 (block [vector false 0 [0, 0x20]]) ⟨0x0A000000, 37, 0⟩ =
    some (0, 0, vector false 0 [0, 0]) := by decide

/-- L1-3, step 1. -/
theorem test_toggle : response 3 (block []) ⟨0x0B300000, 33, 0⟩ = some (0, 0, vector false 0 [0, 2]) := by decide

/-- D-BIT-7: a clamped toggle. -/
theorem test_toggle_clamped : response 1 (block [full, vector true 64 [0, 0]]) ⟨0x0B100000, 100, 0⟩ =
    some (0, 0, vector true 64 [0, 0]) := by decide

/-- P1, step 5. -/
theorem test_count : response 0 (block [vector false 0 [0x400, 0x40000]]) ⟨0x0C000000, 0, 0⟩ =
    some (0, 64, vector false 0 [0x400, 0x40000]) := by decide

/-- D-BIT-13. -/
theorem test_rdlen : (response 0 (block [vector false 0 [0x80]]) ⟨0x0D000000, 0, 0⟩).map (·.2.1) = some 1 := by decide

/-- P2, step 9. -/
theorem test_rdfix : (response 1 (block [full, vector true 64 [0, 0]]) ⟨0x0E100000, 0, 0⟩).map (·.2.1) = some 1 := by
  decide

/-- D-WP-2. -/
theorem test_fill_any_nonzero : response 0 (block [vector true 64 [0, 0]]) ⟨0x10000080, 0, 0⟩ =
    some (0, 0, vector true 64 [0xFFFFFFFF, 0xFFFFFFFF]) := by decide

/-- D-ST-7: unused `OPND` and `DATA` are ignored. -/
theorem test_not : response 0 (block [vector false 0 [5]]) ⟨0x11000000, 77, 0x1234⟩ =
    some (0, 0, vector false 0 [0xFFFFFFFA]) := by decide

/-- D-WP-5. -/
theorem test_and_clears_tail : response 0 (block [full, short]) ⟨0x12010000, 0, 0⟩ =
    some (0, 0, vector false 0 [0x0F0F0000, 0, 0]) := by decide

/-- D-WP-8. -/
theorem test_and_receiver_shorter :
    response 0 (block [vector false 0 [0xF0F0F0F0], vector false 0 [0xFF00FF00, 0x12345678]]) ⟨0x12010000, 0, 0⟩ =
      some (0, 0, vector false 0 [0xF000F000]) := by decide

/-- D-WP-6. -/
theorem test_or_leaves_tail : response 0 (block [full, short]) ⟨0x13010000, 0, 0⟩ =
    some (0, 0, vector false 0 [0xFFFF0F0F, 0x12345678, 0xFFFFFFFF]) := by decide

/-- D-WP-7. -/
theorem test_xor_leaves_tail : response 0 (block [full, short]) ⟨0x14010000, 0, 0⟩ =
    some (0, 0, vector false 0 [0xF0F00F0F, 0x12345678, 0xFFFFFFFF]) := by decide

/-- D-WP-12. -/
theorem test_xor_self : response 0 (block [vector false 0 [0x1234, 0x5678]]) ⟨0x14000000, 0, 0⟩ =
    some (0, 0, vector false 0 [0, 0]) := by decide

/-- D-EQ-2. -/
theorem test_eq_ignores_fixed :
    (response 0 (block [vector true 32 [0x155], vector false 0 [0x155]]) ⟨0x18010000, 0, 0⟩).map (·.2.1) = some 1 := by
  decide

/-- D-EQ-3. -/
theorem test_eq_compares_length :
    (response 0 (block [vector false 0 [1], vector false 0 [1, 0]]) ⟨0x18010000, 0, 0⟩).map (·.2.1) = some 0 := by decide

/-- D-W-7. -/
theorem test_rdw : (response 0 (block [vector false 0 [0, 0x80000001]]) ⟨0x20000000, 1, 0⟩).map (·.2.1) =
    some 2147483649 := by decide

/-- D-W-1: far beyond the length. -/
theorem test_rdw_beyond : (response 0 (block [full]) ⟨0x20000000, 18446744073709551615, 0⟩).map (·.2.1) = some 0 := by
  decide

/-- D-W-2. -/
theorem test_wrw_extends : response 0 (block []) ⟨0x21000000, 2, 0xDEADBEEF⟩ =
    some (0, 0, vector false 0 [0, 0, 0xDEADBEEF]) := by decide

/-- D-W-5. -/
theorem test_wrw_grow : response 0 (block [full]) ⟨0x21000000, 64, 1⟩ = some (2, 65, full) := by decide

/-- D-BIT-10 with `NB = 2^32`: beyond `2^32` bits, in sparse storage. -/
theorem test_set_beyond_32_bits :
    response 0 { block [] with cfg := { Config.testVectors with nb := 2 ^ 32, one_le_nb := by decide, nb_le := by decide } }
      ⟨0x09000000, 4294969296, 0⟩ =
      some (0, 0, ⟨[(134217790, 0x00010000)], 134217791, false, 0⟩) := by decide

/-! ### The port -/

/-- R230: a reset edge discards everything. -/
theorem test_reset_edge :
    (match step { block [full] with edges := [⟨true, false, word 0, false, true⟩], status := 2, inFlight := some (word 0) } with
      | .next t => some (t.vregs, t.status, t.inFlight)
      | _ => none) = some (List.replicate 4 VReg.empty, 0, none) := by decide

/-- R236: the host changes the command before its acceptance. -/
theorem test_unstable_command :
    (match step { block [] with edges := [⟨false, true, word 1, true, true⟩], offered := some (word 0) } with
      | .refused r => some r
      | _ => none) = some .unstableCommand := by decide

/-- I4: a command presented while `rst = 1`. -/
theorem test_command_during_reset :
    (match step { block [] with edges := [⟨true, true, word 0, true, true⟩] } with
      | .refused r => some r
      | _ => none) = some .commandDuringReset := by decide

/-- R62, R236: a command presented while `cmd_ready = 0` is not accepted, and is the host's to hold. -/
theorem test_not_ready :
    (match step { block [full] with edges := [⟨false, true, word 0x11000000, true, true⟩] } with
      | .next t => some (t.inFlight, t.rspValid, t.offered, t.vec 0)
      | _ => none) = some (none, false, some (word 0x11000000), full) := by decide

/-- R62: an accepted command that does not complete is in flight, without effect, and the block is not ready. -/
theorem test_accept_in_flight :
    (match step { block [full] with cmdReady := true, edges := [⟨false, true, word 0x11000000, false, true⟩] } with
      | .next t => some (t.inFlight, t.cmdReady, t.rspValid, t.vec 0)
      | _ => none) = some (some (word 0x11000000), false, false, full) := by decide

/-! ### Host sequences -/

/-- R76: the assembler refuses `ANDP v1, v0, v1`. -/
theorem test_andp_refused : Pseudo.expand (.andp 1 0 1) = none := by decide

/-- P3, steps 7 and 8. -/
theorem test_andp_expands : Pseudo.expand (.andp 2 0 1) = some [.copy 2 0, .andV 2 1] := by decide

/-- L1-4: `toHex()` of the end state of P1. -/
theorem test_toHex : toHex 0 (block [vector false 0 [0x00000400, 0x00040000]]) = "0000040000040000".toList := by decide

/-! ### The assembler -/

/-- The triples a line assembles to. -/
def asm (line : String) : Option (List Command) := (assembleLine line.toList).map fun is => is.map encode

/-- R74. -/
theorem test_asm_set : asm "SET v1, #10" = some [⟨0x09100000, 10, 0⟩] := by decide

/-- D-CON-5. -/
theorem test_asm_init : asm "INIT v0, #1, fill1" = some [⟨0x01000005, 1, 0⟩] := by decide

/-- D-CON-12. -/
theorem test_asm_init_unsized : asm "INIT v1, fill1" = some [⟨0x01100004, 0, 0⟩] := by decide

/-- R181's example. -/
theorem test_asm_wrw : asm "WRW v0, #2, #0xDEADBEEF" = some [⟨0x21000000, 2, 0xDEADBEEF⟩] := by decide

/-- D-WP-2, and the bound of R74 on `IMM`. -/
theorem test_asm_fill : asm "FILL v0, #0x80" = some [⟨0x10000080, 0, 0⟩] ∧ asm "FILL v0, #256" = none := by decide

/-- R75. -/
theorem test_asm_alias : asm "SETALL v2" = some [⟨0x10200001, 0, 0⟩] ∧ asm "NEW v15" = some [⟨0x01F00000, 0, 0⟩] := by
  decide

/-- R74 names `v0` .. `v15`: no other spelling, and no space inside an operand (notes/assumptions/13.md). -/
theorem test_asm_operand_spelling : asm "  SET  v1 ,  #10 " = some [⟨0x09100000, 10, 0⟩] ∧
    ["SET v 1, #10", "SET v1, # 10", "SET v1, #1 0", "SET v01, #10", "SET v16, #10"].map asm = List.replicate 5 none := by
  decide

/-- R76. -/
theorem test_asm_pure : assembleLine "ANDP v2, v0, v1".toList = some [.copy 2 0, .andV 2 1] ∧
    assembleLine "ORP v1, v0, v1".toList = none ∧ assembleLine "NOTP v2, v0".toList = some [.copy 2 0, .notV 2] := by
  decide

/-! ### The host's two entry points -/

theorem test_decodeTableWord : decodeTableWord 32 0x12210000 = some (.andV 2 1) := by decide

theorem test_withFetchWord :
    (match step (State.reset.withFetchWord 32 0x09100000) with
      | .next t => some (t.rspValid, t.status, t.vec 1)
      | _ => none) = some (true, 0, vector false 0 [1]) := by decide

/-! ### Witnesses -/

/-- `V0` unfixed of two buckets, `V1` fixed of capacity 64, `V2` and `V3` empty; `NV = 4`, `NB = 64`. -/
def mixed : State := block [vector false 0 [0x80000001, 7], vector true 64 [5, 0]]

theorem mixed_wf : mixed.Wf := State.wf_of_check (by decide)

/-- `mixed`, with one edge to come at which the host presents `c`, and which completes or not as `done` says. -/
def offering (c : Command) (done : Bool) : State :=
  { mixed with cmdReady := true, edges := [⟨false, true, c, done, true⟩] }

theorem witness_EncodeOfDecode : decode ⟨0x01000005, 1, 0⟩ = .ok (.init 0 (some 1) .ones) := by decide

theorem witness_OpcodeRowsDisjoint :
    (⟨.fill, 0xFF0FFF00, 0x10000000⟩ : Row) ∈ opcodeTable ∧ (0x10F000FF#32 &&& 0xFF0FFF00) = 0x10000000 := by decide

theorem witness_AliasesAssembleAlike : 18446744073709551615 < 2 ^ 64 := by decide

theorem witness_ReservedOpcodeIsIllegal :
    fieldOP 0x22000000 ∉ [0x00#8, 0x01#8, 0x02#8, 0x03#8, 0x08#8, 0x09#8, 0x0A#8, 0x0B#8, 0x0C#8, 0x0D#8, 0x0E#8,
      0x10#8, 0x11#8, 0x12#8, 0x13#8, 0x14#8, 0x18#8, 0x20#8, 0x21#8] ∧
    fieldOP 0x01000006 = 0x01#8 ∧ (fieldIMM 0x01000006).extractLsb' 1 2 = 0b11#2 := by decide

theorem witness_ReservedBitsAreIllegal :
    fieldRSV 0x08000100 ≠ 0#8 ∧
    (fieldVB 0x08010000 ≠ 0#4 ∧ fieldOP 0x08010000 ∉ [0x03#8, 0x12#8, 0x13#8, 0x14#8, 0x18#8]) ∧
    (fieldIMM 0x08000001 ≠ 0#8 ∧ fieldOP 0x08000001 ∉ [0x01#8, 0x10#8]) ∧
    ((fieldIMM 0x01000008).extractLsb' 3 5 ≠ 0#5 ∧ fieldOP 0x01000008 = 0x01#8) ∧
    (fieldVA 0x00100000 ≠ 0#4 ∧ fieldOP 0x00100000 = 0x00#8) := by decide

theorem witness_VectorIndexBeyondNVIsIllegal :
    (∃ a ∈ (Instr.andV 0 4).vectors, mixed.cfg.nv ≤ a.toNat) ∧ ∃ c : Config, c.nv = 16 :=
  ⟨⟨4, by decide, by decide⟩, { Config.testVectors with nv := 16, two_le_nv := by decide, nv_le := by decide }, rfl⟩

theorem witness_UnusedOperandsAreIgnored :
    decode ⟨0x01100004, 5, 7⟩ = .ok (.init 1 none .ones) ∧ readsOpnd (.init 1 none .ones) = false ∧
    ∀ va idx d, Instr.init 1 none .ones ≠ .wrw va idx d := ⟨by decide, rfl, fun _ _ _ h => by cases h⟩

/-- `mixed` with `NOT v0` in flight and one edge to come, at which the host is silent. -/
def flying (done : Bool) : State :=
  { mixed with inFlight := some ⟨0x11000000, 0, 0⟩, edges := [⟨false, false, word 0, done, false⟩] }

/-- Both clauses: accepted at this edge, and in flight before it. -/
theorem witness_StepRunsTheDecodedCommand :
    decode ⟨0x11000000, 0, 0⟩ = .ok (.notV 0) ∧
    (∃ t, let s := offering ⟨0x11000000, 0, 0⟩ true;
      s.edges = ⟨false, true, ⟨0x11000000, 0, 0⟩, true, true⟩ :: [] ∧ s.cmdReady = true ∧ s.inFlight = none ∧
      s.offered = none ∧ exec (.notV 0) { s with edges := [], offered := none } = .next t) ∧
    ∃ t, let s := flying true;
      s.edges = ⟨false, false, word 0, true, false⟩ :: [] ∧ s.inFlight = some ⟨0x11000000, 0, 0⟩ ∧
      s.breaksHold ⟨false, false, word 0, true, false⟩ = false ∧
      exec (.notV 0) { s with edges := [], offered := none } = .next t :=
  ⟨by decide, ⟨_, rfl, rfl, rfl, rfl, rfl⟩, _, rfl, rfl, rfl, rfl⟩

/-- Accepted at once, accepted after being held, and in flight before the edge. -/
theorem witness_StepAnswersIllegalWords :
    let c : Command := ⟨0x22000000, 0, 0⟩
    let e : Edge := ⟨false, true, c, true, true⟩
    let quiet : Edge := ⟨false, false, word 0, true, false⟩
    let s := offering c true
    let held : State := { s with offered := some c }
    let busy : State := { mixed with inFlight := some c, edges := [quiet] }
    decode c = .error .reservedOpcode ∧
    (s.edges = e :: [] ∧ s.cmdReady = true ∧ s.inFlight = none ∧ s.offered = none) ∧
    (held.edges = e :: [] ∧ held.cmdReady = true ∧ held.inFlight = none ∧ held.offered = some c) ∧
    (busy.edges = quiet :: [] ∧ busy.inFlight = some c ∧ busy.breaksHold quiet = false) := by decide

theorem witness_AcceptedCommandIsInFlight :
    (let s := offering ⟨0x11000000, 0, 0⟩ false;
      s.edges = ⟨false, true, ⟨0x11000000, 0, 0⟩, false, true⟩ :: [] ∧ s.breaksHold s.nextEdge = false ∧
      s.inFlight = none ∧ s.cmdReady = true) ∧
    let s := flying false;
      s.edges = ⟨false, false, word 0, false, false⟩ :: [] ∧ s.breaksHold s.nextEdge = false ∧
      s.inFlight = some ⟨0x11000000, 0, 0⟩ := by decide

/-- A command goes into flight, and one stays there. -/
theorem witness_CommandInFlightWasAccepted :
    (∃ t, step (offering ⟨0x11000000, 0, 0⟩ false) = .next t ∧ t.inFlight = some ⟨0x11000000, 0, 0⟩) ∧
    ∃ t, step (flying false) = .next t ∧ t.inFlight = some ⟨0x11000000, 0, 0⟩ := ⟨⟨_, rfl, rfl⟩, _, rfl, rfl⟩

/-- A silent host at a ready block; a host waiting for `cmd_ready`; an edge beyond the list. -/
theorem witness_IdleEdgeChangesOnlyThePort :
    (let e : Edge := ⟨false, false, word 0, true, true⟩
     let s : State := { mixed with cmdReady := true, edges := [e] }
     s.edges = e :: [] ∧ s.breaksHold e = false ∧ s.inFlight = none ∧ e.cmdValid = false) ∧
    (let e : Edge := ⟨false, true, word 0, true, true⟩
     let s : State := { mixed with offered := some (word 0), edges := [e] }
     s.edges = e :: [] ∧ s.breaksHold e = false ∧ s.inFlight = none ∧ s.cmdReady = false) ∧
    mixed.edges = [] ∧ mixed.offered = none ∧ mixed.inFlight = none := by decide

theorem witness_ResponseLastsOneCycle :
    ∃ t, ({ mixed with rspValid := true, edges := [⟨false, false, word 0, false, true⟩] } : State).Wf ∧
      step { mixed with rspValid := true, edges := [⟨false, false, word 0, false, true⟩] } = .next t :=
  ⟨_, State.wf_of_check (by decide), rfl⟩

theorem witness_StateHoldsBetweenCompletions :
    ∃ t, (offering (word 0x11000000) false).nextEdge.rst = false ∧
      step (offering (word 0x11000000) false) = .next t ∧ t.rspValid = false := ⟨_, rfl, rfl, rfl⟩

theorem witness_ResponseComesFromAcceptedCommand :
    ∃ t, step (offering (word 0x11000000) true) = .next t ∧ t.rspValid = true := ⟨_, rfl, rfl⟩

theorem witness_ResetEdgeEntersResetState :
    ({ mixed with inFlight := some (word 0), edges := [⟨true, false, word 0, true, true⟩] } : State).edges =
      ⟨true, false, word 0, true, true⟩ :: [] ∧ (3#4).toNat < mixed.cfg.nv := by decide

/-- The three clauses exclude each other by their hypotheses. -/
theorem witness_StepRefusesExactlyUnlawfulHosts :
    (let s : State := { mixed with edges := [⟨true, true, word 0, true, true⟩] }
     s.nextEdge.rst = true ∧ s.nextEdge.cmdValid = true ∧ s.hostLegal = false) ∧
    (let s : State := { mixed with offered := some (word 0), edges := [⟨false, false, word 0, true, true⟩] }
     s.nextEdge.rst = false ∧ s.nextEdge.cmdValid = false ∧ s.hostLegal = false) ∧
    (offering (word 0) true).hostLegal = true := by decide

theorem witness_StepKeepsWellFormed :
    ∃ t, (offering ⟨0x09000000, 2047, 0⟩ true).Wf ∧ step (offering ⟨0x09000000, 2047, 0⟩ true) = .next t :=
  ⟨_, State.wf_of_check (by decide), rfl⟩

/-- One command of each failing status. -/
theorem witness_FailedCommandsChangeNoVector :
    (∃ t, exec (.unfix 4) mixed = .next t ∧ t.status = 1#4) ∧
    (∃ t, exec (.setBit 0 2048) mixed = .next t ∧ t.status = 2#4) ∧
    ∃ t, exec (.init 0 (some 2049) .absent) mixed = .next t ∧ t.status = 3#4 :=
  ⟨⟨_, rfl, by decide⟩, ⟨_, rfl, by decide⟩, _, rfl, by decide⟩

/-- Each side of each equivalence, at its boundary. -/
theorem witness_StatusSaysWhatHappened :
    mixed.Wf ∧ (Instr.unfix 4).wf mixed.cfg = false ∧ (Instr.unfix 3).wf mixed.cfg = true ∧
    ((mixed.vec 0).fixed = false ∧ mixed.cfg.nb ≤ (2048#64).toNat / 32 ∧ ¬ mixed.cfg.nb ≤ (2047#64).toNat / 32) ∧
    (mixed.cfg.nb ≤ (64#64).toNat ∧ ¬ mixed.cfg.nb ≤ (63#64).toNat) ∧
    (mixed.cfg.nb * 32 < (2049#64).toNat ∧ ¬ mixed.cfg.nb * 32 < (2048#64).toNat) :=
  ⟨mixed_wf, by decide, by decide, by decide, by decide, by decide⟩

/-- A shorter length, a fixed flag set, a fixed flag cleared. -/
theorem witness_LengthAndFixedFlagMoveOnlyAsStated :
    mixed.Wf ∧
    (∃ t, exec (.copy 0 2) mixed = .next t ∧ (t.vec 0).len.toNat < (mixed.vec 0).len.toNat) ∧
    (∃ t, exec (.copy 0 1) mixed = .next t ∧ (t.vec 0).fixed = true ∧ (mixed.vec 0).fixed = false) ∧
    ∃ t, exec (.unfix 1) mixed = .next t ∧ (t.vec 1).fixed = false ∧ (mixed.vec 1).fixed = true :=
  ⟨mixed_wf, ⟨_, rfl, by decide⟩, ⟨_, rfl, by decide⟩, _, rfl, by decide⟩

theorem witness_ValuesFitTheirWidths :
    mixed.Wf ∧ ∃ t, exec (.toggleBit 0 18446744073709551615) mixed = .next t ∧ t.status = 2#4 ∧
      ∀ va idx d, Instr.toggleBit 0 18446744073709551615 ≠ .wrw va idx d :=
  ⟨mixed_wf, _, rfl, by decide, fun _ _ _ h => by cases h⟩

/-- Two states that differ in `V1`, STATUS and RESULT. -/
theorem witness_CommandsReadOnlyTheVectorsTheyName :
    ∃ s' : State, mixed.Wf ∧ s'.Wf ∧ s'.cfg = mixed.cfg ∧ s' ≠ mixed ∧
      ∀ a ∈ (Instr.xorV 0 2).vectors, s'.vec a = mixed.vec a :=
  ⟨{ block [vector false 0 [0x80000001, 7]] with status := 2, result := 9 }, mixed_wf,
    State.wf_of_check (by decide), rfl, by decide, by decide⟩

theorem witness_UnfixKeepsLengthAndWords :
    0x02300000#32 &&& 0xFF0FFFFF#32 = 0x02000000#32 ∧ mixed.Wf ∧ (3#4).toNat < mixed.cfg.nv :=
  ⟨by decide, mixed_wf, by decide⟩

theorem witness_FillOverwritesExistingBuckets :
    0x103000FF#32 &&& 0xFF0FFF00#32 = 0x10000000#32 ∧ mixed.Wf ∧ (3#4).toNat < mixed.cfg.nv :=
  ⟨by decide, mixed_wf, by decide⟩

theorem witness_NotComplementsExistingBuckets :
    0x11300000#32 &&& 0xFF0FFFFF#32 = 0x11000000#32 ∧ mixed.Wf ∧ (3#4).toNat < mixed.cfg.nv :=
  ⟨by decide, mixed_wf, by decide⟩

theorem witness_AndClearsTheTail :
    0x12300000#32 &&& 0xFF00FFFF#32 = 0x12000000#32 ∧ mixed.Wf ∧ (3#4).toNat < mixed.cfg.nv ∧ (0#4).toNat < mixed.cfg.nv :=
  ⟨by decide, mixed_wf, by decide, by decide⟩

theorem witness_OrLeavesTheTail :
    0x13300000#32 &&& 0xFF00FFFF#32 = 0x13000000#32 ∧ mixed.Wf ∧ (3#4).toNat < mixed.cfg.nv ∧ (0#4).toNat < mixed.cfg.nv :=
  ⟨by decide, mixed_wf, by decide, by decide⟩

theorem witness_XorLeavesTheTail :
    0x14300000#32 &&& 0xFF00FFFF#32 = 0x14000000#32 ∧ mixed.Wf ∧ (3#4).toNat < mixed.cfg.nv ∧ (0#4).toNat < mixed.cfg.nv :=
  ⟨by decide, mixed_wf, by decide, by decide⟩

theorem witness_CopyMakesAnEqualVector :
    0x03300000#32 &&& 0xFF00FFFF#32 = 0x03000000#32 ∧ mixed.Wf ∧ (3#4).toNat < mixed.cfg.nv ∧ (0#4).toNat < mixed.cfg.nv :=
  ⟨by decide, mixed_wf, by decide, by decide⟩

theorem witness_UnsizedInitIsVectorReset : mixed.Wf ∧ (3#4).toNat < mixed.cfg.nv := ⟨mixed_wf, by decide⟩

/-- Both forms of the count: an unfixed and a fixed vector. -/
theorem witness_CountIsTheAddressableWidth :
    0x0C300000#32 &&& 0xFF0FFFFF#32 = 0x0C000000#32 ∧ mixed.Wf ∧ (mixed.vec 0).fixed = false ∧
    (mixed.vec 1).fixed = true := ⟨by decide, mixed_wf, by decide, by decide⟩

theorem witness_RdlenReadsTheBucketCount :
    0x0D300000#32 &&& 0xFF0FFFFF#32 = 0x0D000000#32 ∧ mixed.Wf ∧ (mixed.vec 1).fixed = true :=
  ⟨by decide, mixed_wf, by decide⟩

theorem witness_RdfixReadsTheFixedFlag :
    0x0E300000#32 &&& 0xFF0FFFFF#32 = 0x0E000000#32 ∧ (3#4).toNat < mixed.cfg.nv := by decide

theorem witness_NopChangesOnlyTheResponse :
    0x00000000#32 &&& 0xFFFFFFFF#32 = 0x00000000#32 ∧ fieldOP 0x00000001 = 0x00#8 ∧ (0x00000001#32) ≠ 0#32 := by decide

/-- The word, and the sizes at both sides of the storage bound. -/
theorem witness_InitCreatesTheVector :
    (0x01F00005#32 &&& 0xFF0FFFF8#32 = 0x01000000#32 ∧ fillModeOf (fieldIMM 0x01F00005) = some .ones) ∧
    (0x01F00006#32 &&& 0xFF0FFFF8#32 = 0x01000000#32 ∧ (fieldIMM 0x01F00006).extractLsb' 1 2 = 0b11#2) ∧
    mixed.cfg.nv ≤ (4#4).toNat ∧ mixed.Wf ∧ mixed.cfg.nb * 32 < (2049#64).toNat ∧ (2048#64).toNat ≤ mixed.cfg.nb * 32 ∧
    (0#64).toNat ≤ mixed.cfg.nb * 32 := ⟨by decide, by decide, by decide, mixed_wf, by decide, by decide, by decide⟩

/-- Below the length, beyond storage, and the last bucket of storage, on `V0` of length 2. -/
theorem witness_ExtensionZeroFills :
    1 < (mixed.vec 0).len.toNat ∧ ((mixed.vec 0).len.toNat ≤ 64 ∧ mixed.cfg.nb ≤ 64) ∧
    ((mixed.vec 0).len.toNat ≤ 63 ∧ 63 < mixed.cfg.nb) ∧ ((mixed.vec 0).len.toNat ≤ 2 ∧ 2 < mixed.cfg.nb) := by decide

/-- Clamped from offset 64 on; beyond the length from offset 64 on in `V0`; the last offset of each. -/
theorem witness_TestReadsOneBit :
    0x08F00000#32 &&& 0xFF0FFFFF#32 = 0x08000000#32 ∧
    ((mixed.vec 1).fixed = true ∧ (mixed.vec 1).cap.toNat ≤ 64) ∧ (mixed.vec 0).len.toNat ≤ 64 / 32 ∧
    (¬ ((mixed.vec 1).fixed = true ∧ (mixed.vec 1).cap.toNat ≤ 63) ∧ 63 / 32 < (mixed.vec 1).len.toNat) := by decide

/-- The three clauses of `WritesOneBit`: clamped; beyond storage; the last offset of the capacity and of storage. -/
theorem witness_WritesOneBit :
    mixed.Wf ∧ (Clamps (mixed.vec 1) 64 ∧ ¬ Clamps (mixed.vec 1) 63) ∧
    (¬ Clamps (mixed.vec 0) 2048 ∧ mixed.cfg.nb ≤ (2048#64).toNat / 32) ∧
    (¬ Clamps (mixed.vec 0) 2047 ∧ (2047#64).toNat / 32 < mixed.cfg.nb) ∧
    ((63#64).toNat / 32 < mixed.cfg.nb) :=
  ⟨mixed_wf, by unfold Clamps; decide, by unfold Clamps; decide, by unfold Clamps; decide, by decide⟩

theorem witness_SetWritesOne : 0x09F00000#32 &&& 0xFF0FFFFF#32 = 0x09000000#32 ∧ mixed.Wf := ⟨by decide, mixed_wf⟩
theorem witness_UnsetWritesZero : 0x0AF00000#32 &&& 0xFF0FFFFF#32 = 0x0A000000#32 ∧ mixed.Wf := ⟨by decide, mixed_wf⟩
theorem witness_ToggleInvertsTheBit : 0x0BF00000#32 &&& 0xFF0FFFFF#32 = 0x0B000000#32 ∧ mixed.Wf := ⟨by decide, mixed_wf⟩

/-- (b) to (f): an unsized INIT; SET, then UNSET; TOGGLE twice; a clamped SET. -/
theorem witness_BitCommandLaws :
    mixed.Wf ∧ (∃ t, exec (.init 0 none .absent) mixed = .next t) ∧
    (∃ t u, exec (.setBit 0 63) mixed = .next t ∧ t.status = 0#4 ∧ ¬ Clamps (mixed.vec 0) 63 ∧
      exec (.unsetBit 0 63) t = .next u ∧ u.status = 0#4) ∧
    (∃ t u, exec (.toggleBit 0 64) mixed = .next t ∧ t.status = 0#4 ∧ exec (.toggleBit 0 64) t = .next u ∧
      u.status = 0#4) ∧
    ∃ t, exec (.setBit 1 64) mixed = .next t ∧ Clamps (mixed.vec 1) 64 :=
  ⟨mixed_wf, ⟨_, rfl⟩, ⟨_, _, rfl, by decide, by unfold Clamps; decide, rfl, by decide⟩,
    ⟨_, _, rfl, by decide, rfl, by decide⟩, _, rfl, by unfold Clamps; decide⟩

/-- Operands of one length and of two for (a), the two-step laws for the rest. -/
theorem witness_EngineLaws :
    mixed.Wf ∧ (mixed.vec 0).len = (mixed.vec 1).len ∧ (mixed.vec 0).len ≠ (mixed.vec 2).len ∧ (1#4 : VIdx) ≠ 0 ∧
    (∃ t u, exec (.andV 0 1) mixed = .next t ∧ exec (.andV 1 0) mixed = .next u) ∧
    (∃ t u, exec (.notV 0) mixed = .next t ∧ exec (.notV 0) t = .next u) ∧
    (∃ t u, exec (.xorV 0 1) mixed = .next t ∧ exec (.xorV 0 1) t = .next u) ∧
    ∃ t u, exec (.fill 0 0#8) mixed = .next t ∧ exec (.orV 0 1) t = .next u :=
  ⟨mixed_wf, by decide, by decide, by decide, ⟨_, _, rfl, rfl⟩, ⟨_, _, rfl, rfl⟩, ⟨_, _, rfl, rfl⟩, _, _, rfl, rfl⟩

/-- Equal vectors, and vectors that differ in a word only, and in length only. -/
theorem witness_EqComparesLengthAndWords :
    ((mixed.vec 2).len = (mixed.vec 3).len ∧ ∀ i < (mixed.vec 2).len.toNat, (mixed.vec 2).word i = (mixed.vec 3).word i) ∧
    ((mixed.vec 0).len = (mixed.vec 1).len ∧ (mixed.vec 0).word 0 ≠ (mixed.vec 1).word 0) ∧
    (mixed.vec 0).len ≠ (mixed.vec 2).len := by decide

theorem witness_CompareAndCopyLaws :
    mixed.Wf ∧ Answers (.eqV 2 3) mixed 0#4 1#64 ∧ Answers (.eqV 3 2) mixed 0#4 1#64 ∧
    ∃ t, exec (.copy 0 1) mixed = .next t :=
  ⟨mixed_wf, ⟨_, rfl, ends_finish _ _ _ _⟩, ⟨_, rfl, ends_finish _ _ _ _⟩, _, rfl⟩

/-- `vD = vB`, `vD ≠ vA` is refused; `vD = vA = vB` and distinct operands are not. -/
theorem witness_PureFormsCompute :
    mixed.Wf ∧ ((1#4 : VIdx) = 1 ∧ (1#4 : VIdx) ≠ 0) ∧ ¬ ((1#4 : VIdx) = 1 ∧ (1#4 : VIdx) ≠ 1) ∧
    ¬ ((2#4 : VIdx) = 1 ∧ (2#4 : VIdx) ≠ 0) := ⟨mixed_wf, by decide, by decide, by decide⟩

/-- At the length and just below it. -/
theorem witness_RdwReadsOneBucket :
    0x20F00000#32 &&& 0xFF0FFFFF#32 = 0x20000000#32 ∧ mixed.Wf ∧ (mixed.vec 1).len.toNat ≤ (2#64).toNat ∧
    (1#64).toNat < (mixed.vec 1).len.toNat ∧ (mixed.vec 1).fixed = true :=
  ⟨by decide, mixed_wf, by decide, by decide, by decide⟩

/-- Clamped from index 2 on; beyond storage from 64 on; the last index of capacity and of storage. -/
theorem witness_WrwWritesOneBucket :
    0x21F00000#32 &&& 0xFF0FFFFF#32 = 0x21000000#32 ∧ mixed.Wf ∧
    ((mixed.vec 1).fixed = true ∧ (mixed.vec 1).cap.toNat / 32 ≤ (2#64).toNat) ∧
    (¬ ((mixed.vec 1).fixed = true ∧ (mixed.vec 1).cap.toNat / 32 ≤ (1#64).toNat) ∧ (1#64).toNat < mixed.cfg.nb) ∧
    (¬ (mixed.vec 0).fixed = true ∧ mixed.cfg.nb ≤ (64#64).toNat ∧ (64#64).toNat + 1 < 2 ^ 64) ∧
    (¬ (mixed.vec 0).fixed = true ∧ (63#64).toNat < mixed.cfg.nb) :=
  ⟨by decide, mixed_wf, by decide, by decide, by decide, by decide⟩

theorem witness_BitAndWordViewsAgree :
    mixed.Wf ∧
    (∃ t, exec (.wrw 0 63 0x80000000) mixed = .next t ∧ t.status = 0#4 ∧ ¬ Clamps (mixed.vec 0) (32 * (63#64).toNat) ∧
      (2047#64).toNat = 32 * (63#64).toNat + 31) ∧
    ∃ t, exec (.setBit 0 2047) mixed = .next t ∧ t.status = 0#4 ∧ ¬ Clamps (mixed.vec 0) (2047#64).toNat ∧
      (63#64).toNat = (2047#64).toNat / 32 :=
  ⟨mixed_wf, ⟨_, rfl, by decide, by unfold Clamps; decide, by decide⟩, _, rfl, by decide, by unfold Clamps; decide,
    by decide⟩

/-- A repeatable command, and the three that are not, each run twice. -/
theorem witness_RepeatedCommands :
    mixed.Wf ∧ (∃ t u, (Instr.setBit 0 100).wf mixed.cfg = true ∧ exec (.setBit 0 100) mixed = .next t ∧
      exec (.setBit 0 100) t = .next u ∧ repeatable (.setBit 0 100) = true) ∧
    (∃ t u, exec (.toggleBit 0 100) mixed = .next t ∧ exec (.toggleBit 0 100) t = .next u) ∧
    (∃ t u, exec (.notV 0) mixed = .next t ∧ exec (.notV 0) t = .next u) ∧
    ∃ t u, exec (.xorV 0 1) mixed = .next t ∧ exec (.xorV 0 1) t = .next u :=
  ⟨mixed_wf, ⟨_, _, by decide, rfl, rfl, rfl⟩, ⟨_, _, rfl, rfl⟩, ⟨_, _, rfl, rfl⟩, _, _, rfl, rfl⟩

theorem witness_BucketsRoundTrip : mixed.Wf ∧ (0#4).toNat < mixed.cfg.nv ∧ (List.replicate 64 5#32).length ≤ mixed.cfg.nb :=
  ⟨mixed_wf, by decide, by decide⟩

/-- At the storage bound, and at a length that is rounded up. -/
theorem witness_ArrayRoundTrip : mixed.Wf ∧ (3#4).toNat < mixed.cfg.nv ∧
    (List.replicate 2048 true).length ≤ mixed.cfg.nb * 32 ∧ [true, false, true].length ≤ mixed.cfg.nb * 32 :=
  ⟨mixed_wf, by decide, by rw [List.length_replicate]; decide, by decide⟩

end Sys2Proof.Machine.Tests
end

/-! ## Proofs of the statements about the state (spec/10_state.md)

What they rest on: the reset state and the invariant, the frame of every command, how a length and
a fixed flag can move, and what a command depends on. -/

namespace Sys2Proof.Machine

/-! ### The invariant at reset and along a step (R27, R28, R34) -/

/-- The reset state satisfies the invariant, whatever the parameters, the draw and the host's coming edges. -/
theorem resetOf_wf (c : Config) (ready : Bool) (es : List Edge) (n : Nat) : (State.resetOf c ready es n).Wf where
  vregs_length := List.length_replicate
  vectors a _ := by rw [resetOf_vec]; exact VRegWf.empty _
  status_le := Nat.zero_le _
  busy _ h := by cases h
  responding h := by cases h

/-- A response leaves nothing in flight and the block not ready, so only the command's own effect matters. -/
theorem respond_wf {s : State} (h : s.Wf) : s.respond.Wf :=
  { h with
    busy := fun _ hc => by cases hc
    responding := fun _ => rfl }

/-- A command in flight is neither ready for another nor responding. -/
theorem stayBusy_wf {s : State} (h : s.Wf) (c : Command) : (s.stayBusy c).Wf :=
  { h with
    busy := fun _ _ => ⟨rfl, rfl⟩
    responding := fun hv => by cases hv }

/-- An idle port may be ready: it has neither a command in flight nor a response. -/
theorem idle_wf {s : State} (h : s.Wf) (ready : Bool) : (s.idle ready).Wf :=
  { h with
    busy := fun _ hc => by cases hc
    responding := fun hv => by cases hv }

/-- Settles O19, by the four ways a step answers. -/
theorem stepKeepsWellFormed : Obligations.StepKeepsWellFormed := by
  intro s t hs h
  obtain ⟨-, -, rfl⟩ | ⟨-, -, ⟨c, u, -, -, hu, rfl⟩ | ⟨c, -, -, rfl⟩ | ⟨-, rfl⟩⟩ := step_cases h
  · exact resetOf_wf _ _ _ _
  · exact respond_wf (perform_wf (atEdge_wf hs) hu)
  · exact stayBusy_wf (atEdge_wf hs) c
  · exact idle_wf (atEdge_wf hs) _

/-- Settles O18: `State.reset` is one of the reset states. -/
theorem resetIsWellFormed : Obligations.ResetIsWellFormed :=
  ⟨resetOf_wf _ _ _ _, resetOf_wf⟩

/-! ### The reset edge (R34, R230, R231) -/

/-- A reset edge at which the host presents nothing enters the reset state, whatever was in flight or drawn. -/
theorem step_reset {s : State} (hr : s.nextEdge.rst = true) (hv : s.nextEdge.cmdValid = false) :
    step s = .next (State.resetOf s.cfg s.nextEdge.ready s.dropEdge.edges s.dropEdge.idleEdges) := by
  simp [step, clockEdge, hr, hv]

/-- The empty vector has no bit to read: every offset is beyond its length (R123). -/
@[simp] theorem empty_testedBit (off : Opnd) : VReg.empty.testedBit off = false := by
  simp [VReg.testedBit, VReg.empty]

/-- TEST of an empty vector answers 0. -/
theorem testBit_empty {s : State} {a : VIdx} (ha : a.toNat < s.cfg.nv) (he : s.vec a = VReg.empty) (off : Opnd) :
    Answers (.testBit a off) s 0#4 0#64 :=
  answers_of_exec (by rw [exec_testBit ha, he, empty_testedBit]; rfl)

/-- Settles O16: the state entered is `State.resetOf`, read field by field. -/
theorem resetEdgeEntersResetState : Obligations.ResetEdgeEntersResetState := by
  intro s e rest he hrst hvalid
  have hne := nextEdge_cons he
  have hpin : s.nextEdge.rst = true := by rw [hne, hrst]
  have hcmd : s.nextEdge.cmdValid = false := by rw [hne, hvalid]
  refine ⟨by simp [State.cmdReadyPin, hpin], by simp [State.rspValidPin, hpin], _, step_reset hpin hcmd, rfl,
    by rw [dropEdge_cons he]; rfl, List.length_replicate, rfl, rfl, rfl, rfl, by rw [hne]; rfl, rfl, ?empty, ?answers⟩
  case empty =>
    intro a _
    rw [resetOf_vec]
    exact ⟨rfl, rfl, rfl, empty_word⟩
  case answers =>
    intro a k ha
    exact testBit_empty (s := State.resetOf _ _ _ _) ha (resetOf_vec _ _ _ _ a) k

/-! ### What every command leaves alone (R21, R40) -/

/-- Settles O20, from the two ways a command ends (`exec_cases`). -/
theorem everyCommandCompletesWithinItsReceiver : Obligations.EveryCommandCompletesWithinItsReceiver := by
  intro i s
  obtain ⟨t, h⟩ := exec_next i s
  exact ⟨t, h, exec_samePort h, exec_vregs_length h, fun _ hb => exec_vec_other h hb⟩

/-! ### How a length and a fixed flag can move (R23, R24) -/

/-- `VectorMove s a i v`: the command `i`, run from `s`, may leave `v` in vector `a`. Four commands move a length down or a
fixed flag; every other effect keeps the flag and does not shorten. -/
inductive VectorMove (s : State) (a : VIdx) : Instr → VReg → Prop
  | emptied (fm : FillMode) : VectorMove s a (.init a none fm) VReg.empty
  | sized (n : Opnd) (fm : FillMode) : VectorMove s a (.init a (some n) fm) (VReg.sized n.toNat fm)
  | unfixed : VectorMove s a (.unfix a) { s.vec a with fixed := false, cap := 0#38 }
  | copied (b : VIdx) : VectorMove s a (.copy a b) (s.vec b)
  | kept {i : Instr} {v : VReg} (len_le : (s.vec a).len.toNat ≤ v.len.toNat) (fixed_eq : v.fixed = (s.vec a).fixed) :
      VectorMove s a i v

theorem VectorMove.of_eq {s : State} {a : VIdx} {i : Instr} {v : VReg} (h : v = s.vec a) : VectorMove s a i v :=
  .kept (h ▸ le_rfl) (h ▸ rfl)

theorem bucketWrite_receiver {i : Instr} {b : BucketWrite} (h : bucketWrite i = some b) : i.receiver = some b.va := by
  cases i <;> simp only [bucketWrite, Option.some.injEq, reduceCtorEq] at h <;> subst h <;> rfl

/-- The receiver is one of the vectors the command names. -/
theorem receiver_mem_vectors {i : Instr} {a : VIdx} (h : i.receiver = some a) : a ∈ i.vectors := by
  cases i <;> simp only [Instr.receiver, Option.some.injEq, reduceCtorEq] at h <;> simp [Instr.vectors, h]

/-- Every vector a legal command names exists (the last checks of R67). -/
theorem exists_of_wf {i : Instr} {c : Config} (h : i.wf c = true) : ∀ a ∈ i.vectors, a.toNat < c.nv := by
  simpa [Instr.wf, vectorExists] using h

/-- A write of one bucket keeps the flag and does not shorten its receiver. -/
theorem bucketWrite_vectorMove {i : Instr} {b : BucketWrite} (hb : bucketWrite i = some b) {s t : State} (hs : s.Wf)
    (ha : b.va.toNat < s.cfg.nv) (h : exec i s = .next t) : VectorMove s b.va i (t.vec b.va) := by
  obtain ⟨-, he⟩ | ⟨-, -, -, he⟩ | ⟨-, -, v, he, -, hlen, hfix, -⟩ := exec_bucketWrite_cases hb hs ha <;>
    cases exec_unique h he
  · exact .of_eq rfl
  · exact .of_eq rfl
  · rw [written_vec hs ha]
    exact .kept (by omega) hfix

/-- What a command leaves in a vector is one of the moves. -/
theorem exec_vectorMove {i : Instr} {s t : State} (hs : s.Wf) (h : exec i s = .next t) (a : VIdx) :
    VectorMove s a i (t.vec a) := by
  by_cases hr : i.receiver = some a
  swap
  · exact .of_eq (exec_vec_other h hr)
  cases hwf : i.wf s.cfg with
  | false => cases exec_unique h (exec_illegal hwf); exact .of_eq rfl
  | true =>
    have ha := exists_of_wf hwf a (receiver_mem_vectors hr)
    cases hw : bucketWrite i with
    | some b =>
      cases (bucketWrite_receiver hw).symm.trans hr
      exact bucketWrite_vectorMove hw hs ha h
    | none =>
      have written : ∀ {v}, exec i s = .next ((s.setVec a v).finish statusOK 0#64) → t.vec a = v := fun he => by
        cases exec_unique h he
        exact written_vec hs ha _ _ _
      cases i with
      | init va size fm =>
        cases hr
        cases size with
        | none =>
          rw [written (exec_init_unsized ha fm)]
          exact .emptied fm
        | some n =>
          by_cases hn : s.cfg.nb * 32 < n.toNat
          · cases exec_unique h (exec_init_size ha fm hn)
            exact .of_eq rfl
          · rw [written (exec_init_sized ha fm (by omega))]
            exact .sized n fm
      | unfix va =>
        cases hr
        rw [written (exec_unfix ha)]
        exact .unfixed
      | copy va vb =>
        cases hr
        have hb := ((wf_two rfl).1 hwf).2
        rw [written (exec_copy ha hb)]
        exact .copied vb
      | fill va imm =>
        cases hr
        rw [written (exec_fill ha imm)]
        exact .kept le_rfl rfl
      | notV va =>
        cases hr
        rw [written (exec_notV ha)]
        exact .kept le_rfl rfl
      | andV va vb =>
        cases hr
        have hb := ((wf_two rfl).1 hwf).2
        rw [written (exec_andV ha hb)]
        exact .kept le_rfl rfl
      | orV va vb =>
        cases hr
        have hb := ((wf_two rfl).1 hwf).2
        rw [written (exec_orV ha hb)]
        exact .kept le_rfl rfl
      | xorV va vb =>
        cases hr
        have hb := ((wf_two rfl).1 hwf).2
        rw [written (exec_xorV ha hb)]
        exact .kept le_rfl rfl
      | setBit | unsetBit | toggleBit | wrw => cases hw
      | nop | testBit | count | rdlen | rdfix | eqV | rdw => cases hr

/-- Settles O23, move by move. -/
theorem lengthAndFixedFlagMoveOnlyAsStated : Obligations.LengthAndFixedFlagMoveOnlyAsStated := by
  intro i s t a hs h
  have hm := exec_vectorMove hs h a
  generalize t.vec a = v at hm ⊢
  cases hm with
  | emptied fm => exact ⟨fun _ => ⟨_, fm, a, .inl rfl⟩, fun hf => (by cases hf), fun _ _ => .inl ⟨fm, rfl⟩⟩
  | sized n fm => exact ⟨fun _ => ⟨_, fm, a, .inl rfl⟩, fun _ _ => .inl ⟨n, fm, rfl⟩, fun hf => (by cases hf)⟩
  | unfixed => exact ⟨fun hl => absurd hl (Nat.lt_irrefl _), fun hf => (by cases hf), fun _ _ => .inr (.inl rfl)⟩
  | copied b =>
    exact ⟨fun _ => ⟨none, .absent, b, .inr rfl⟩, fun hf _ => .inr ⟨b, rfl, hf⟩, fun _ _ => .inr (.inr ⟨b, rfl⟩)⟩
  | kept hlen hfix =>
    exact ⟨fun hl => absurd hl (by omega), fun hf hf' => by simp [hfix, hf'] at hf, fun hf hf' => by simp [hfix, hf'] at hf⟩

/-! ### What a command depends on (R32, R40) -/

/-- The command ends alike in both states: with one response and no vector written, or with one and the same vector written. -/
def EndsAlike (i : Instr) (s s' : State) : Prop :=
  (∃ c r, exec i s = .next (s.finish c r) ∧ exec i s' = .next (s'.finish c r)) ∨
  ∃ va v, va.toNat < s.cfg.nv ∧ exec i s = .next ((s.setVec va v).finish statusOK 0#64) ∧
    exec i s' = .next ((s'.setVec va v).finish statusOK 0#64)

/-- The write datapath reads its receiver and `NB` only. -/
theorem bucketWrite_alike {i : Instr} {b : BucketWrite} (hb : bucketWrite i = some b) {s s' : State}
    (hcfg : s'.cfg = s.cfg) (ha : b.va.toNat < s.cfg.nv) (hv : s'.vec b.va = s.vec b.va) : EndsAlike i s s' := by
  have ha' : b.va.toNat < s'.cfg.nv := hcfg ▸ ha
  have hex := exec_bucketWrite hb
  simp only [State.writeBucket] at hex
  by_cases hc : b.clamp (s.vec b.va) = true
  · exact .inl ⟨_, _, by rw [hex, onVector_legal ha, if_pos hc], by rw [hex, onVector_legal ha', hv, if_pos hc]⟩
  · cases he : (s.vec b.va).extend s.cfg.nb b.idx with
    | none =>
      refine .inl ⟨statusGROW, growResult (b.idx + 1), ?_, ?_⟩
      · rw [hex, onVector_legal ha, if_neg hc, he]; rfl
      · rw [hex, onVector_legal ha', hv, hcfg, if_neg hc, he]; rfl
    | some v =>
      refine .inr ⟨b.va, v.setWord b.idx (b.word (v.word b.idx)), ha, ?_, ?_⟩
      · rw [hex, onVector_legal ha, if_neg hc, he]
      · rw [hex, onVector_legal ha', hv, hcfg, if_neg hc, he]

/-- States that agree on the parameters and the named vectors end a command alike. -/
theorem exec_alike {i : Instr} {s s' : State} (hcfg : s'.cfg = s.cfg) (hvec : ∀ a ∈ i.vectors, s'.vec a = s.vec a) :
    EndsAlike i s s' := by
  cases hwf : i.wf s.cfg with
  | false => exact .inl ⟨_, _, exec_illegal hwf, exec_illegal (hcfg ▸ hwf)⟩
  | true =>
    have hex := exists_of_wf hwf
    have hex' : ∀ a ∈ i.vectors, a.toNat < s'.cfg.nv := hcfg ▸ hex
    cases hb : bucketWrite i with
    | some b =>
      have hmem := receiver_mem_vectors (bucketWrite_receiver hb)
      exact bucketWrite_alike hb hcfg (hex _ hmem) (hvec _ hmem)
    | none =>
      cases i <;> simp only [Instr.vectors, List.mem_cons, List.not_mem_nil, or_false, forall_eq, forall_eq_or_imp]
        at hex hex' hvec
      case nop => exact .inl ⟨_, _, exec_nop, exec_nop⟩
      case init va size fm =>
        cases size with
        | none => exact .inr ⟨va, _, hex, exec_init_unsized hex fm, exec_init_unsized hex' fm⟩
        | some n =>
          by_cases hn : s.cfg.nb * 32 < n.toNat
          · exact .inl ⟨_, _, exec_init_size hex fm hn, exec_init_size hex' fm (hcfg ▸ hn)⟩
          · rw [not_lt] at hn
            exact .inr ⟨va, _, hex, exec_init_sized hex fm hn, exec_init_sized hex' fm (hcfg ▸ hn)⟩
      case unfix va => exact .inr ⟨va, _, hex, exec_unfix hex, hvec ▸ exec_unfix hex'⟩
      case copy va vb => exact .inr ⟨va, _, hex.1, exec_copy hex.1 hex.2, hvec.2 ▸ exec_copy hex'.1 hex'.2⟩
      case testBit va off => exact .inl ⟨_, _, exec_testBit hex off, hvec ▸ exec_testBit hex' off⟩
      case count va => exact .inl ⟨_, _, exec_count hex, hvec ▸ exec_count hex'⟩
      case rdlen va => exact .inl ⟨_, _, exec_rdlen hex, hvec ▸ exec_rdlen hex'⟩
      case rdfix va => exact .inl ⟨_, _, exec_rdfix hex, hvec ▸ exec_rdfix hex'⟩
      case fill va imm => exact .inr ⟨va, _, hex, exec_fill hex imm, hvec ▸ exec_fill hex' imm⟩
      case notV va => exact .inr ⟨va, _, hex, exec_notV hex, hvec ▸ exec_notV hex'⟩
      case andV va vb =>
        exact .inr ⟨va, _, hex.1, exec_andV hex.1 hex.2, hvec.1 ▸ hvec.2 ▸ exec_andV hex'.1 hex'.2⟩
      case orV va vb => exact .inr ⟨va, _, hex.1, exec_orV hex.1 hex.2, hvec.1 ▸ hvec.2 ▸ exec_orV hex'.1 hex'.2⟩
      case xorV va vb =>
        exact .inr ⟨va, _, hex.1, exec_xorV hex.1 hex.2, hvec.1 ▸ hvec.2 ▸ exec_xorV hex'.1 hex'.2⟩
      case eqV va vb => exact .inl ⟨_, _, exec_eqV hex.1 hex.2, hvec.1 ▸ hvec.2 ▸ exec_eqV hex'.1 hex'.2⟩
      case rdw va idx => exact .inl ⟨_, _, exec_rdw hex idx, hvec ▸ exec_rdw hex' idx⟩
      case setBit | unsetBit | toggleBit | wrw => cases hb

/-- Settles O25, from the two ways two agreeing states end a command alike. -/
theorem commandsReadOnlyTheVectorsTheyName : Obligations.CommandsReadOnlyTheVectorsTheyName := by
  intro i s s' t t' hs hs' hcfg hvec h h'
  obtain ⟨c, r, he, he'⟩ | ⟨va, v, ha, he, he'⟩ := exec_alike hcfg hvec <;>
    cases exec_unique h he <;> cases exec_unique h' he'
  · exact ⟨rfl, rfl, hvec⟩
  · refine ⟨rfl, rfl, fun a hmem => ?_⟩
    by_cases hav : a = va
    · subst hav
      rw [written_vec hs ha, written_vec hs' (hcfg ▸ ha)]
    · rw [finish_vec, finish_vec, setVec_vec_other _ _ _ hav, setVec_vec_other _ _ _ hav, hvec a hmem]

end Sys2Proof.Machine

/-! ## Proofs of the statements about memory access and ordering (spec/20_memory.md)

What they rest on: what a busy edge does, that the bit space and the word space read one storage, and what a command run
twice leaves. -/

namespace Sys2Proof.Machine

/-! ### A command in flight (R50, R62) -/

theorem accepts_iff {s : State} {e : Edge} :
    s.accepts e = true ↔ e.rst = false ∧ e.cmdValid = true ∧ s.cmdReady = true ∧ s.inFlight = none := by
  simp [State.accepts, and_assoc]

/-- A command in flight keeps every other from being accepted. -/
theorem accepts_inFlight {s : State} {c : Command} (h : s.inFlight = some c) (e : Edge) : s.accepts e = false := by
  simp [State.accepts, h]

/-- A lawful edge without reset and without a completion keeps the pending command in flight. -/
theorem step_stayBusy {s : State} {c : Command} (hr : s.nextEdge.rst = false) (hb : s.breaksHold s.nextEdge = false)
    (hp : s.pending s.nextEdge = some c) (hd : s.nextEdge.done = false) : step s = .next (s.atEdge.stayBusy c) := by
  simp only [step, clockEdge, hr, hb, hp, hd, Bool.false_eq_true, if_false]
  rfl

/-- Settles O12: accepted or in flight, the command is the pending one, and the edge only keeps it in flight. -/
theorem acceptedCommandIsInFlight : Obligations.AcceptedCommandIsInFlight := by
  intro s e rest c he hr hd hb hc
  have hne := nextEdge_cons he
  obtain ⟨hp, hhold⟩ : s.pending e = some c ∧
      s.holding e = if s.inFlight = none then none else if e.cmdValid then some e.cmd else none := by
    obtain ⟨hf, hready, hv, rfl⟩ | hf := hc
    · have ha := accepts_iff.2 ⟨hr, hv, hready, hf⟩
      simp [State.pending, State.holding, ha, hf]
    · have ha := accepts_inFlight hf e
      simp [State.pending, State.holding, ha, hf]
  have hstep := step_stayBusy (s := s) (c := c) (by rwa [hne]) (by rwa [hne]) (by rwa [hne]) (by rwa [hne])
  refine ⟨_, hstep, rfl, rfl, rfl, by simp, by simp, by simp, ?edges, ?offered⟩
  case edges => simp [State.atEdge, dropEdge_cons he]
  case offered => simpa [State.atEdge, hne] using hhold

/-! ### The bit space and the word space (R43, R44) -/

/-- On a well-formed vector TEST reads the bit space: where it answers 0 for the clamp or the length, the storage is 0. -/
theorem testedBit_eq_bit {nb : Nat} {v : VReg} (h : v.Wf nb) (off : Opnd) : v.testedBit off = v.bit off.toNat := by
  rw [VReg.testedBit, bucketIndex_eq, bitPosition_eq]
  split
  · next hc =>
    obtain ⟨hf, hle⟩ := clamped_iff.1 hc
    have hcap := h.fixed_cap hf
    exact (bit_beyond h (by omega)).symm
  · split
    · next hl => exact (bit_beyond h hl).symm
    · rfl

theorem answers_testBit {s : State} (hs : s.Wf) {va : VIdx} (ha : va.toNat < s.cfg.nv) (off : Opnd) :
    Answers (.testBit va off) s 0#4 (if (s.vec va).bit off.toNat then 1#64 else 0#64) := by
  have hbit : (BitVec.ofBool ((s.vec va).bit off.toNat)).zeroExtend 64 =
      if (s.vec va).bit off.toNat then 1#64 else 0#64 := by
    cases (s.vec va).bit off.toNat <;> rfl
  have hexec := exec_testBit ha off
  rw [testedBit_eq_bit (hs.vectors va ha), hbit] at hexec
  exact answers_of_exec hexec

/-- On a well-formed vector RDW reads the word space: beyond the length, the storage is 0. -/
theorem answers_rdw {s : State} (hs : s.Wf) {va : VIdx} (ha : va.toNat < s.cfg.nv) (idx : Opnd) :
    Answers (.rdw va idx) s 0#4 (((s.vec va).word idx.toNat).zeroExtend 64) := by
  have hexec := exec_rdw ha idx
  split at hexec
  · next hl =>
    rw [(hs.vectors va ha).zero_beyond _ hl]
    exact answers_of_exec hexec
  · exact answers_of_exec hexec

/-- The clamp of a whole bucket is the clamp of its first offset (R28, R181). -/
theorem wordClamped_iff_clamps {nb : Nat} {v : VReg} (h : v.Wf nb) (i : Nat) :
    v.wordClamped i = true ↔ Clamps v (32 * i) := by
  have := h.cap_mod
  rw [wordClamped_iff, Clamps]
  exact and_congr_right fun _ => by omega

/-- A write of one bucket that answers `OK` and is not clamped leaves the new word in the bucket. -/
theorem bucketWrite_word {i : Instr} {b : BucketWrite} (hb : bucketWrite i = some b) {s t : State} (hs : s.Wf)
    (ha : b.va.toNat < s.cfg.nv) (h : exec i s = .next t) (hok : t.status = 0#4) (hc : ¬ b.clamp (s.vec b.va) = true) :
    (t.vec b.va).word b.idx = b.word ((s.vec b.va).word b.idx) := by
  obtain ⟨hc', -⟩ | ⟨-, -, -, he⟩ | ⟨-, -, v, he, -, -, -, -, hword⟩ := exec_bucketWrite_cases hb hs ha
  · exact absurd hc' hc
  · cases exec_unique h he
    cases hok
  · cases exec_unique h he
    rw [written_vec hs ha, hword, if_pos rfl]

/-- Settles O52: the word written is read bit by bit, and the bit set is read in its word. -/
theorem bitAndWordViewsAgree : Obligations.BitAndWordViewsAgree := by
  intro s t va hs ha
  refine ⟨?wordThenBit, ?bitThenWord⟩
  case wordThenBit =>
    intro idx w j k h hok hc hj hk
    have hword : (t.vec va).word idx.toNat = w :=
      bucketWrite_word rfl hs ha h hok ((wordClamped_iff_clamps (hs.vectors va ha) _).not.2 hc)
    have hbit : (t.vec va).bit k.toNat = w.getLsbD j := by
      rw [VReg.bit, show k.toNat / 32 = idx.toNat by omega, show k.toNat % 32 = j by omega, hword]
    rw [← hbit]
    exact answers_testBit (exec_wf hs h) (exec_cfg h ▸ ha) k
  case bitThenWord =>
    intro k idx h hok hc hidx
    have hword : (t.vec va).word (bucketIndex k) = (s.vec va).word (bucketIndex k) ||| bitMask (bitPosition k) :=
      bucketWrite_word rfl hs ha h hok (clamped_iff.not.2 hc)
    rw [bucketIndex_eq, bitPosition_eq, ← hidx] at hword
    have hlt := Nat.mod_lt k.toNat (by decide : 0 < 32)
    refine ⟨_, answers_rdw (exec_wf hs h) (exec_cfg h ▸ ha) idx, ?_⟩
    rw [hword, BitVec.getLsbD_setWidth, set_bits _ _ _ hlt, bitMask_getLsbD hlt]
    simp [show k.toNat % 32 < 64 by omega]

/-! ### Operations on one vector, run twice (R51) -/

/-- Two loops over the same buckets are one loop of the composed body. -/
theorem mapWords_mapWords {nb : Nat} {v : VReg} (h : v.Wf nb) {lo hi : Nat} (hhi : hi ≤ v.len.toNat)
    (f g : Nat → Word → Word) :
    (v.mapWords lo hi f).mapWords lo hi g = v.mapWords lo hi fun i w => g i (f i w) := by
  have hf := mapWords_wf h (lo := lo) hhi f
  refine VRegWf.ext (mapWords_wf hf hhi g) (mapWords_wf h hhi _) rfl rfl rfl fun i => ?_
  rw [(mapWords_spec _ lo hi g hf.canonical).2, (mapWords_spec v lo hi f h.canonical).2,
    (mapWords_spec v lo hi _ h.canonical).2]
  split <;> rfl

/-- A loop whose body keeps each word it meets keeps the vector. -/
theorem mapWords_eq_self {nb : Nat} {v : VReg} (h : v.Wf nb) {lo hi : Nat} (hhi : hi ≤ v.len.toNat)
    {f : Nat → Word → Word} (hf : ∀ i, f i (v.word i) = v.word i) : v.mapWords lo hi f = v := by
  refine VRegWf.ext (mapWords_wf h hhi f) h rfl rfl rfl fun i => ?_
  rw [(mapWords_spec v lo hi f h.canonical).2, hf, ite_self]

/-- Writing a bucket back changes nothing. -/
theorem setWord_self {v : VReg} (h : v.buckets.wf = true) (i : Nat) : v.setWord i (v.word i) = v := by
  have hb : v.buckets.write i (v.word i) = v.buckets := Store.ext_of_wf (Store.write_wf h) h fun k => by
    rw [Store.read_write h]
    split
    · next hk => rw [hk]; rfl
    · rfl
  rw [VReg.setWord, hb]

/-- OR and XOR twice with the same second operand: their loop runs twice over the same buckets. -/
theorem combine_combine {nb : Nat} {a : VReg} (h : a.Wf nb) (b : VReg) (f : Word → Word → Word) :
    (a.combine b f).combine b f =
      a.mapWords 0 (min a.len.toNat b.len.toNat) fun i w => f (f w (b.word i)) (b.word i) :=
  mapWords_mapWords h (min_le_left _ _) _ _

theorem or_self_vector {nb : Nat} {a : VReg} (h : a.Wf nb) : (a.combine a fun x y => x ||| y) = a :=
  mapWords_eq_self h (min_le_left _ _) fun _ => BitVec.or_self

theorem or_or_vector {nb : Nat} {a : VReg} (h : a.Wf nb) (b : VReg) :
    ((a.combine b fun x y => x ||| y).combine b fun x y => x ||| y) = a.combine b fun x y => x ||| y := by
  simp only [combine_combine h, BitVec.or_assoc, BitVec.or_self]
  rfl

theorem xor_xor_vector {nb : Nat} {a : VReg} (h : a.Wf nb) (b : VReg) :
    ((a.combine b fun x y => x ^^^ y).combine b fun x y => x ^^^ y) = a := by
  rw [combine_combine h]
  exact mapWords_eq_self h (min_le_left _ _) fun i => by rw [BitVec.xor_assoc, BitVec.xor_self, BitVec.xor_zero]

theorem and_self_vector {nb : Nat} {a : VReg} (h : a.Wf nb) : a.andWith a = a := by
  refine VRegWf.ext (andWith_wf h a) h rfl rfl rfl fun i => ?_
  rw [andWith_word h, BitVec.and_self]
  split
  · rfl
  · exact (h.zero_beyond i (by omega)).symm

theorem and_and_vector {nb : Nat} {a : VReg} (h : a.Wf nb) (b : VReg) : (a.andWith b).andWith b = a.andWith b := by
  have hab := andWith_wf h b
  refine VRegWf.ext (andWith_wf hab b) hab rfl rfl rfl fun i => ?_
  rw [andWith_word hab, andWith_len, andWith_word h]
  split
  · rw [BitVec.and_assoc, BitVec.and_self]
  · rfl

/-! ### A command that writes its receiver as a function of two vectors -/

/-- With the parameters `c`, the command answers `OK` and writes `op V[va] V[vb]` into `va`; a command of one operand has
`vb = va`, and an `op` that ignores its second argument. -/
def WritesOp (c : Config) (i : Instr) (va vb : VIdx) (op : VReg → VReg → VReg) : Prop :=
  va.toNat < c.nv ∧ ∀ s : State, s.cfg = c →
    exec i s = .next ((s.setVec va (op (s.vec va) (s.vec vb))).finish statusOK 0#64)

namespace WritesOp

variable {s t u : State} {i : Instr} {va vb : VIdx} {op : VReg → VReg → VReg}

theorem vec (hw : WritesOp s.cfg i va vb op) (hs : s.Wf) (h : exec i s = .next t) :
    t.vec va = op (s.vec va) (s.vec vb) := by
  obtain ⟨ha, hexec⟩ := hw
  cases exec_unique h (hexec s rfl)
  exact written_vec hs ha _ _ _

theorem vec_other (hw : WritesOp s.cfg i va vb op) (h : exec i s = .next t) (hb : vb ≠ va) : t.vec vb = s.vec vb := by
  cases exec_unique h (hw.2 s rfl)
  exact setVec_vec_other s va _ hb

/-- What the command leaves in its receiver the second time. -/
theorem vec_twice (hw : WritesOp s.cfg i va vb op) (hs : s.Wf) (h : exec i s = .next t) (h' : exec i t = .next u) :
    u.vec va = op (t.vec va) (t.vec vb) := by
  rw [← exec_cfg h] at hw
  exact hw.vec (exec_wf hs h) h'

/-- Where the second run writes back what the receiver holds, it changes nothing. -/
theorem again (hw : WritesOp s.cfg i va vb op) (hs : s.Wf) (h : exec i s = .next t)
    (hop : op (t.vec va) (t.vec vb) = t.vec va) : exec i t = .next t := by
  obtain ⟨ha, hexec⟩ := hw
  have hcfg := exec_cfg h
  rw [hexec t hcfg, hop, setVec_self (exec_wf hs h) (hcfg ▸ ha)]
  cases exec_unique h (hexec s rfl)
  rfl

/-- One operand: an operation that is idempotent on the receiver. -/
theorem again_unary {g : VReg → VReg} (hw : WritesOp s.cfg i va va fun v _ => g v) (hs : s.Wf) (h : exec i s = .next t)
    (hg : g (g (s.vec va)) = g (s.vec va)) : exec i t = .next t :=
  hw.again hs h (by rw [hw.vec hs h, hg])

/-- Two operands, the receiver among them or not. -/
theorem again_binary (hw : WritesOp s.cfg i va vb op) (hs : s.Wf) (h : exec i s = .next t)
    (hself : ∀ v, v.Wf s.cfg.nb → op v v = v) (habsorb : ∀ v w, v.Wf s.cfg.nb → op (op v w) w = op v w) :
    exec i t = .next t := by
  refine hw.again hs h ?_
  by_cases hb : vb = va
  · subst hb
    have hv := (exec_wf hs h).vectors vb (exec_cfg h ▸ hw.1)
    exact hself _ (exec_cfg h ▸ hv)
  · rw [hw.vec_other h hb, hw.vec hs h, habsorb _ _ (hs.vectors va hw.1)]

end WritesOp

section writesOp
variable {c : Config} {va vb : VIdx}

theorem writesOp_init_unsized (ha : va.toNat < c.nv) (fm : FillMode) :
    WritesOp c (.init va none fm) va va fun _ _ => VReg.empty :=
  ⟨ha, fun _ hc => exec_init_unsized (hc ▸ ha) fm⟩

theorem writesOp_init_sized (ha : va.toNat < c.nv) (fm : FillMode) {n : Opnd} (hn : n.toNat ≤ c.nb * 32) :
    WritesOp c (.init va (some n) fm) va va fun _ _ => VReg.sized n.toNat fm :=
  ⟨ha, fun _ hc => exec_init_sized (hc ▸ ha) fm (hc ▸ hn)⟩

theorem writesOp_unfix (ha : va.toNat < c.nv) :
    WritesOp c (.unfix va) va va fun v _ => { v with fixed := false, cap := 0#38 } :=
  ⟨ha, fun _ hc => exec_unfix (hc ▸ ha)⟩

theorem writesOp_fill (ha : va.toNat < c.nv) (imm : BitVec 8) :
    WritesOp c (.fill va imm) va va fun v _ => v.mapWords 0 v.len.toNat fun _ _ => fillWord imm :=
  ⟨ha, fun _ hc => exec_fill (hc ▸ ha) imm⟩

theorem writesOp_notV (ha : va.toNat < c.nv) :
    WritesOp c (.notV va) va va fun v _ => v.mapWords 0 v.len.toNat fun _ w => ~~~w :=
  ⟨ha, fun _ hc => exec_notV (hc ▸ ha)⟩

theorem writesOp_copy (ha : va.toNat < c.nv) (hb : vb.toNat < c.nv) : WritesOp c (.copy va vb) va vb fun _ w => w :=
  ⟨ha, fun _ hc => exec_copy (hc ▸ ha) (hc ▸ hb)⟩

theorem writesOp_andV (ha : va.toNat < c.nv) (hb : vb.toNat < c.nv) : WritesOp c (.andV va vb) va vb VReg.andWith :=
  ⟨ha, fun _ hc => exec_andV (hc ▸ ha) (hc ▸ hb)⟩

theorem writesOp_orV (ha : va.toNat < c.nv) (hb : vb.toNat < c.nv) :
    WritesOp c (.orV va vb) va vb fun v w => v.combine w fun x y => x ||| y :=
  ⟨ha, fun _ hc => exec_orV (hc ▸ ha) (hc ▸ hb)⟩

theorem writesOp_xorV (ha : va.toNat < c.nv) (hb : vb.toNat < c.nv) :
    WritesOp c (.xorV va vb) va vb fun v w => v.combine w fun x y => x ^^^ y :=
  ⟨ha, fun _ hc => exec_xorV (hc ▸ ha) (hc ▸ hb)⟩

end writesOp

/-! ### Commands run twice -/

/-- Writing the same vector with the same response again changes nothing. -/
theorem setVec_finish_setVec_finish (s : State) (a : VIdx) (v : VReg) (c : BitVec 4) (r : BitVec 64) :
    (((s.setVec a v).finish c r).setVec a v).finish c r = (s.setVec a v).finish c r := by
  simp [State.setVec, State.finish]

/-- A command that wrote no vector answers the same again. -/
theorem exec_again_of_unwritten {i : Instr} {s : State} {c : BitVec 4} {r : BitVec 64}
    (h : exec i s = .next (s.finish c r)) : exec i (s.finish c r) = .next (s.finish c r) := by
  obtain ⟨c', r', he, he'⟩ | ⟨va, v, -, he, he'⟩ := exec_alike (s := s) (s' := s.finish c r) (i := i) rfl fun _ _ => rfl
  · have heq := exec_unique h he
    rw [he', heq]
    rfl
  · have heq := exec_unique h he
    rw [he', heq, setVec_finish_setVec_finish]

/-- A command without a receiver writes no vector. -/
theorem exec_again_of_no_receiver {i : Instr} {s t : State} (hr : i.receiver = none) (h : exec i s = .next t) :
    exec i t = .next t := by
  obtain ⟨c, r, -, he⟩ | ⟨va, v, hr', -⟩ := exec_cases i s
  · cases exec_unique h he
    exact exec_again_of_unwritten he
  · cases hr.symm.trans hr'

/-- The clamp of a bucket write reads the fixed flag and the capacity only (R121, R181). -/
theorem bucketWrite_clamp_congr {i : Instr} {b : BucketWrite} (hb : bucketWrite i = some b) {v v' : VReg}
    (hf : v'.fixed = v.fixed) (hc : v'.cap = v.cap) : b.clamp v' = b.clamp v := by
  cases i <;> simp only [bucketWrite, Option.some.injEq, reduceCtorEq] at hb <;> subst hb <;>
    simp only [VReg.clamped, VReg.wordClamped, hf, hc]

/-- A bucket write that is not clamped, on a bucket below the length, needs no extension: the word is written in place. -/
theorem exec_bucketWrite_inPlace {i : Instr} {b : BucketWrite} (hb : bucketWrite i = some b) {s : State}
    (ha : b.va.toNat < s.cfg.nv) (hc : ¬ b.clamp (s.vec b.va) = true) (hlt : b.idx < (s.vec b.va).len.toNat) :
    exec i s =
      .next ((s.setVec b.va ((s.vec b.va).setWord b.idx (b.word ((s.vec b.va).word b.idx)))).finish statusOK 0#64) := by
  have hext : (s.vec b.va).extend s.cfg.nb b.idx = some (s.vec b.va) := if_pos hlt
  rw [exec_bucketWrite hb, State.writeBucket, onVector_legal ha, if_neg hc, hext]

/-- A write of one bucket, twice: either the first run changed no vector and the second answers the same; or the first run
made the word, and the second makes the next one from it in place. -/
theorem bucketWrite_twice {i : Instr} {b : BucketWrite} (hb : bucketWrite i = some b) {s t u : State} (hs : s.Wf)
    (ha : b.va.toNat < s.cfg.nv) (h : exec i s = .next t) (h' : exec i t = .next u) :
    (u = t ∧ t.vec b.va = s.vec b.va) ∨
    (u = t.setVec b.va ((t.vec b.va).setWord b.idx (b.word ((t.vec b.va).word b.idx))) ∧
      ∀ k, (t.vec b.va).word k = if k = b.idx then b.word ((s.vec b.va).word b.idx) else (s.vec b.va).word k) := by
  obtain ⟨-, he⟩ | ⟨-, -, -, he⟩ | ⟨hc, -, v, he, -, hlen, hfix, hcap, hword⟩ := exec_bucketWrite_cases hb hs ha <;>
    cases exec_unique h he
  · exact .inl ⟨exec_unique h' (exec_again_of_unwritten he), rfl⟩
  · exact .inl ⟨exec_unique h' (exec_again_of_unwritten he), rfl⟩
  · have hvec := written_vec hs ha v statusOK 0#64
    have hinPlace := exec_bucketWrite_inPlace hb (s := (s.setVec b.va v).finish statusOK 0#64) ha
      (by rwa [hvec, bucketWrite_clamp_congr hb hfix hcap]) (by rw [hvec]; omega)
    exact .inr ⟨exec_unique h' hinPlace, by rwa [hvec]⟩

/-- A write of one bucket whose word is the same made twice changes nothing the second time. -/
theorem bucketWrite_again {i : Instr} {b : BucketWrite} (hb : bucketWrite i = some b)
    (hidem : ∀ w, b.word (b.word w) = b.word w) {s t u : State} (hs : s.Wf) (ha : b.va.toNat < s.cfg.nv)
    (h : exec i s = .next t) (h' : exec i t = .next u) : u = t := by
  obtain ⟨hu, -⟩ | ⟨rfl, hword⟩ := bucketWrite_twice hb hs ha h h'
  · exact hu
  · have ht := exec_wf hs h
    have ha' : b.va.toNat < t.cfg.nv := exec_cfg h ▸ ha
    have hsame : b.word ((t.vec b.va).word b.idx) = (t.vec b.va).word b.idx := by rw [hword, if_pos rfl, hidem]
    rw [hsame, setWord_self (ht.vectors _ ha').canonical, setVec_self ht ha']

/-- A write of one bucket whose word is undone when made twice restores every word, and keeps the length the first run
left. -/
theorem bucketWrite_restores {i : Instr} {b : BucketWrite} (hb : bucketWrite i = some b)
    (hinv : ∀ w, b.word (b.word w) = w) {s t u : State} (hs : s.Wf) (ha : b.va.toNat < s.cfg.nv)
    (h : exec i s = .next t) (h' : exec i t = .next u) :
    (∀ k, (u.vec b.va).word k = (s.vec b.va).word k) ∧ (u.vec b.va).len = (t.vec b.va).len := by
  obtain ⟨rfl, hvec⟩ | ⟨rfl, hword⟩ := bucketWrite_twice hb hs ha h h'
  · exact ⟨fun k => by rw [hvec], rfl⟩
  · have ht := exec_wf hs h
    have ha' : b.va.toNat < t.cfg.nv := exec_cfg h ▸ ha
    rw [setVec_vec_same _ _ _ (vec_lt ht ha')]
    refine ⟨fun k => ?_, rfl⟩
    rw [setWord_word (ht.vectors _ ha').canonical]
    split
    · next hk => rw [hk, hword, if_pos rfl, hinv]
    · next hk => rw [hword, if_neg hk]

/-- The commands R51 lists as idempotent: a read answers the same again, a bucket write finds its word in place, and the
others write back what their receiver holds. -/
theorem exec_again_of_repeatable {i : Instr} {s t : State} (hs : s.Wf) (hwf : i.wf s.cfg = true)
    (hr : repeatable i = true) (h : exec i s = .next t) : exec i t = .next t := by
  obtain ⟨u, h'⟩ := exec_next i t
  cases i with
  | testBit | rdw | count | rdlen | rdfix | eqV => exact exec_again_of_no_receiver rfl h
  | setBit va off =>
    have hidem : ∀ w, w ||| bitMask (bitPosition off) ||| bitMask (bitPosition off) = w ||| bitMask (bitPosition off) :=
      fun w => by rw [BitVec.or_assoc, BitVec.or_self]
    rw [h', bucketWrite_again rfl hidem hs ((wf_one rfl).1 hwf) h h']
  | unsetBit va off =>
    have hidem : ∀ w, w &&& ~~~(bitMask (bitPosition off)) &&& ~~~(bitMask (bitPosition off)) =
        w &&& ~~~(bitMask (bitPosition off)) := fun w => by rw [BitVec.and_assoc, BitVec.and_self]
    rw [h', bucketWrite_again rfl hidem hs ((wf_one rfl).1 hwf) h h']
  | wrw va idx d => rw [h', bucketWrite_again rfl (fun _ => rfl) hs ((wf_one rfl).1 hwf) h h']
  | init va size fm =>
    have ha := (wf_one rfl).1 hwf
    cases size with
    | none => exact (writesOp_init_unsized ha fm).again_unary hs h rfl
    | some n =>
      by_cases hn : n.toNat ≤ s.cfg.nb * 32
      · exact (writesOp_init_sized ha fm hn).again_unary hs h rfl
      · have he := exec_init_size ha fm (not_le.1 hn)
        cases exec_unique h he
        exact exec_again_of_unwritten he
  | unfix va => exact (writesOp_unfix ((wf_one rfl).1 hwf)).again_unary hs h rfl
  | fill va imm =>
    have ha := (wf_one rfl).1 hwf
    exact (writesOp_fill ha imm).again_unary hs h (mapWords_mapWords (hs.vectors va ha) le_rfl _ _)
  | copy va vb =>
    obtain ⟨ha, hb⟩ := (wf_two rfl).1 hwf
    exact (writesOp_copy ha hb).again_binary hs h (fun _ _ => rfl) fun _ _ _ => rfl
  | andV va vb =>
    obtain ⟨ha, hb⟩ := (wf_two rfl).1 hwf
    exact (writesOp_andV ha hb).again_binary hs h (fun _ => and_self_vector) fun _ w hv => and_and_vector hv w
  | orV va vb =>
    obtain ⟨ha, hb⟩ := (wf_two rfl).1 hwf
    exact (writesOp_orV ha hb).again_binary hs h (fun _ => or_self_vector) fun _ w hv => or_or_vector hv w
  | nop | toggleBit | notV | xorV => cases hr

/-- TOGGLE twice restores every bit of the receiver; a length the first extended stays (R51). -/
theorem toggleBit_twice {s t u : State} {va : VIdx} {off : Opnd} (hs : s.Wf) (ha : va.toNat < s.cfg.nv)
    (h : exec (.toggleBit va off) s = .next t) (h' : exec (.toggleBit va off) t = .next u) :
    (∀ j, (u.vec va).bit j = (s.vec va).bit j) ∧ (u.vec va).len = (t.vec va).len := by
  have hinv : ∀ w, w ^^^ bitMask (bitPosition off) ^^^ bitMask (bitPosition off) = w := fun w => by
    rw [BitVec.xor_assoc, BitVec.xor_self, BitVec.xor_zero]
  obtain ⟨hword, hlen⟩ := bucketWrite_restores rfl hinv hs ha h h'
  exact ⟨fun j => congrArg (BitVec.getLsbD · (j % 32)) (hword (j / 32)), hlen⟩

/-- NOT twice restores the receiver (R51). -/
theorem notV_twice {s t u : State} {va : VIdx} (hs : s.Wf) (ha : va.toNat < s.cfg.nv)
    (h : exec (.notV va) s = .next t) (h' : exec (.notV va) t = .next u) : u.vec va = s.vec va := by
  have hv := hs.vectors va ha
  have hw := writesOp_notV ha
  rw [hw.vec_twice hs h h', hw.vec hs h, mapWords_len, mapWords_mapWords hv le_rfl]
  exact mapWords_eq_self hv le_rfl fun _ => BitVec.not_not

/-- XOR twice with another vector restores the receiver (R51). -/
theorem xorV_twice {s t u : State} {va vb : VIdx} (hs : s.Wf) (ha : va.toNat < s.cfg.nv) (hb : vb.toNat < s.cfg.nv)
    (hne : vb ≠ va) (h : exec (.xorV va vb) s = .next t) (h' : exec (.xorV va vb) t = .next u) :
    u.vec va = s.vec va := by
  have hw := writesOp_xorV ha hb
  rw [hw.vec_twice hs h h', hw.vec_other h hne, hw.vec hs h, xor_xor_vector (hs.vectors va ha)]

/-- Settles O53, command by command. -/
theorem repeatedCommands : Obligations.RepeatedCommands := by
  intro s t u i hs hwf h h'
  refine ⟨fun hr => exec_unique h' (exec_again_of_repeatable hs hwf hr h), ?toggle, ?not, ?xor⟩
  case toggle =>
    rintro va k rfl
    exact toggleBit_twice hs ((wf_one rfl).1 hwf) h h'
  case not =>
    rintro va rfl
    exact notV_twice hs ((wf_one rfl).1 hwf) h h'
  case xor =>
    rintro va vb rfl hne
    obtain ⟨ha, hb⟩ := (wf_two rfl).1 hwf
    exact xorV_twice hs ha hb hne h h'

end Sys2Proof.Machine

/-! ## Proofs of the statements about encoding (spec/30_encoding.md)

What they rest on: the row a decoded command belongs to and what that row fixes of the word's fields, the response to a word
that fails decode, how a step completes a command, and COPY followed by an operator. -/

namespace Sys2Proof

open Sys2Proof.Laws.EncodesInRow (rowOf rowOf_mem)

/-! ### The row of a decoded command (R67, R68) -/

/-- Settles O3: a match fixes all of `OP`, and no two rows share their `OP`. -/
theorem opcodeRowsDisjoint : Obligations.OpcodeRowsDisjoint := by
  intro w r r' hr hr' h h'
  have hop : fieldOP w = fieldOP r.pat := Row.hits_op hr (by simpa [Row.hits] using h)
  have hop' : fieldOP w = fieldOP r'.pat := Row.hits_op hr' (by simpa [Row.hits] using h')
  exact row_eq_of_op r hr r' hr' (hop.symm.trans hop')

theorem row_eq_of_row_op : ∀ r ∈ opcodeTable, ∀ r' ∈ opcodeTable, r.op = r'.op → r = r' := by decide

/-- INIT takes its operands where its fill mode is legal, and `OPND` where `SZ = 1` (R65). -/
theorem assemble_init_iff {c : Command} {i : Instr} :
    Op.init.assemble c = .ok i ↔ ∃ fm, fillModeOf (fieldIMM c.cmd) = some fm ∧
      i = .init (fieldVA c.cmd) (if (fieldIMM c.cmd).getLsbD 0 then some c.opnd else none) fm := by
  rw [Op.assemble]
  cases fillModeOf (fieldIMM c.cmd) with
  | none => simp
  | some fm => simp only [Except.ok.injEq, Option.some.injEq, exists_eq_left', eq_comm]

/-- A row assembles commands of its own row only. -/
theorem rowOf_of_assemble {o : Op} {c : Command} {i : Instr} (h : o.assemble c = .ok i) : (rowOf i).op = o := by
  cases o with
  | init =>
    obtain ⟨fm, -, rfl⟩ := assemble_init_iff.1 h
    rfl
  | _ => cases h; rfl

/-- A word decodes to a command exactly where it matches the command's row and that row assembles the command. -/
theorem decode_ok_iff {c : Command} {i : Instr} :
    decode c = .ok i ↔ c.cmd &&& (rowOf i).mask = (rowOf i).pat ∧ (rowOf i).op.assemble c = .ok i := by
  constructor
  · intro h
    obtain ⟨r, hr, hm, ha⟩ := decode_inv h
    obtain rfl := row_eq_of_row_op _ (rowOf_mem i) r hr (rowOf_of_assemble ha)
    exact ⟨hm, ha⟩
  · rintro ⟨hm, ha⟩
    rw [decode_row (rowOf_mem i) hm, ha]

/-! ### Encoding, then decoding (R63 to R68) -/

/-- The operands come back out of the fields they are encoded in. -/
theorem assemble_encode (i : Instr) : (rowOf i).op.assemble (encode i) = .ok i := by
  cases i with
  | init va size fm =>
    refine assemble_init_iff.2 ⟨fm, ?_⟩
    cases size <;> simp [encode, fillModeOf_initImm, sized_initImm, -BitVec.getLsbD_eq_getElem]
  | _ => simp [rowOf, Op.assemble, encode]

/-- Settles O1: the encoder's word is found in the command's own row (`EncodesInRow`), which assembles the command. -/
theorem decodeOfEncode : Obligations.DecodeOfEncode := by
  intro i
  have hrow : opcodeTable.find? (fun r => r.hits (encode i).cmd) = some (rowOf i) := Laws.EncodesInRow.every i
  rw [decode, hrow]
  exact assemble_encode i

/-! ### What decoding fixes of the word's fields (R68, R70) -/

/-- Where the mask is all ones, the word has the pattern's field. -/
theorem field_eq_of_match {N : Nat} {w m p : BitVec N} (h : w &&& m = p) {k n : Nat}
    (hm : m.extractLsb' k n = BitVec.allOnes n) : w.extractLsb' k n = p.extractLsb' k n := by
  rw [← h, BitVec.extractLsb'_and, hm, BitVec.and_allOnes]

/-- The rows that use `VB` (R68). -/
def opcodesWithVB : List (BitVec 8) := [0x03#8, 0x12#8, 0x13#8, 0x14#8, 0x18#8]

/-- The rows that use `IMM` (R68). -/
def opcodesWithIMM : List (BitVec 8) := [0x01#8, 0x10#8]

theorem rsv_fixed : ∀ r ∈ opcodeTable, fieldRSV r.mask = BitVec.allOnes 8 ∧ fieldRSV r.pat = 0#8 := by decide

theorem va_fixed : ∀ r ∈ opcodeTable, fieldOP r.pat = 0x00#8 →
    fieldVA r.mask = BitVec.allOnes 4 ∧ fieldVA r.pat = 0#4 := by decide

theorem vb_fixed : ∀ r ∈ opcodeTable, fieldOP r.pat ∉ opcodesWithVB →
    fieldVB r.mask = BitVec.allOnes 4 ∧ fieldVB r.pat = 0#4 := by decide

theorem imm_fixed : ∀ r ∈ opcodeTable, fieldOP r.pat ∉ opcodesWithIMM →
    fieldIMM r.mask = BitVec.allOnes 8 ∧ fieldIMM r.pat = 0#8 := by decide

theorem initImm_fixed : ∀ r ∈ opcodeTable, fieldOP r.pat = 0x01#8 →
    (fieldIMM r.mask).extractLsb' 3 5 = BitVec.allOnes 5 ∧ (fieldIMM r.pat).extractLsb' 3 5 = 0#5 := by decide

section decoded
variable {c : Command} {i : Instr} (h : decode c = .ok i)
include h

theorem fieldOP_of_decode : fieldOP c.cmd = fieldOP (rowOf i).pat :=
  Row.hits_op (rowOf_mem i) (by simpa [Row.hits] using (decode_ok_iff.1 h).1)

/-- A field the command's row fixes to 0 is 0. -/
theorem field_eq_zero_of_decode {k n : Nat} (hfixed : (rowOf i).mask.extractLsb' k n = BitVec.allOnes n ∧
    (rowOf i).pat.extractLsb' k n = 0#n) : c.cmd.extractLsb' k n = 0#n :=
  (field_eq_of_match (decode_ok_iff.1 h).1 hfixed.1).trans hfixed.2

theorem fieldRSV_of_decode : fieldRSV c.cmd = 0#8 := field_eq_zero_of_decode h (rsv_fixed _ (rowOf_mem i))

theorem fieldVA_of_decode (hop : fieldOP c.cmd = 0x00#8) : fieldVA c.cmd = 0#4 :=
  field_eq_zero_of_decode h (va_fixed _ (rowOf_mem i) (fieldOP_of_decode h ▸ hop))

theorem fieldVB_of_decode (hop : fieldOP c.cmd ∉ opcodesWithVB) : fieldVB c.cmd = 0#4 :=
  field_eq_zero_of_decode h (vb_fixed _ (rowOf_mem i) (fieldOP_of_decode h ▸ hop))

theorem fieldIMM_of_decode (hop : fieldOP c.cmd ∉ opcodesWithIMM) : fieldIMM c.cmd = 0#8 :=
  field_eq_zero_of_decode h (imm_fixed _ (rowOf_mem i) (fieldOP_of_decode h ▸ hop))

theorem initImm_of_decode (hop : fieldOP c.cmd = 0x01#8) : (fieldIMM c.cmd).extractLsb' 3 5 = 0#5 := by
  obtain ⟨hmask, hpat⟩ := initImm_fixed _ (rowOf_mem i) (fieldOP_of_decode h ▸ hop)
  have himm : fieldIMM c.cmd &&& fieldIMM (rowOf i).mask = fieldIMM (rowOf i).pat :=
    field_of_match (decode_ok_iff.1 h).1 0 8
  exact (field_eq_of_match himm hmask).trans hpat

/-- The word is its fields, with the `OP` of its command's row. -/
theorem word_of_decode :
    commandWord (fieldOP (rowOf i).pat) (fieldVA c.cmd) (fieldVB c.cmd) (fieldIMM c.cmd) = c.cmd := by
  rw [← fieldOP_of_decode h]
  exact word_eq_fields _ (fieldRSV_of_decode h)

end decoded

/-- An INIT immediate is `SZ` and `FM`, where the bits above them are 0 (R65). -/
theorem initImm_of_fields : ∀ (imm : BitVec 8) (fm : FillMode), imm.extractLsb' 3 5 = 0#5 → fillModeOf imm = some fm →
    initImm (imm.getLsbD 0) fm = imm := by
  intro imm fm
  cases fm <;> revert imm <;> decide

/-- Settles O2: the encoder writes the fields the decoder read, and 0 where the row fixes 0. -/
theorem encodeOfDecode : Obligations.EncodeOfDecode := by
  intro c i h
  obtain ⟨-, ha⟩ := decode_ok_iff.1 h
  have hva := fieldVA_of_decode h
  have hvb := fieldVB_of_decode h
  have himm := fieldIMM_of_decode h
  have hinit := initImm_of_decode h
  rw [fieldOP_of_decode h] at hva hvb himm hinit
  rw [← word_of_decode h]
  cases i with
  | init va size fm =>
    obtain ⟨fm', hfm, hi⟩ := assemble_init_iff.1 ha
    cases hi
    have hvb' : fieldVB c.cmd = 0#4 := hvb (by simp [rowOf, fieldOP, opcodesWithVB])
    have himm' : initImm ((fieldIMM c.cmd).getLsbD 0) fm = fieldIMM c.cmd :=
      initImm_of_fields _ _ (hinit (by simp [rowOf, fieldOP])) hfm
    rw [hvb', ← himm', sized_initImm]
    cases (fieldIMM c.cmd).getLsbD 0 <;> simp [encode, rowOf, fieldOP]
  | _ =>
    -- the operands are the fields read; the fields not read are 0 by `hva`, `hvb`, `himm`
    cases ha
    simp [encode, rowOf, fieldOP, opcodesWithVB, opcodesWithIMM, hva, hvb, himm]

end Sys2Proof

namespace Sys2Proof.Machine

open Sys2Proof.Laws.EncodesInRow (rowOf rowOf_mem)

/-! ### Words that fail decode (R67, R69, R70) -/

/-- A word that decodes to no command is answered with `ILLEGAL` and changes no vector (R201). -/
theorem perform_illegal {c : Command} (h : ∀ i, decode c ≠ .ok i) (s : State) :
    ∃ t, perform c s = .next t ∧ s.Ends t 1#4 0#64 [] := by
  refine ⟨s.raiseIllegal, ?_, ends_finish _ _ _ _⟩
  rw [perform]
  cases hd : decode c with
  | error d => rfl
  | ok i => exact absurd hd (h i)

theorem opcodes_listed : ∀ r ∈ opcodeTable, fieldOP r.pat ∈ [0x00#8, 0x01#8, 0x02#8, 0x03#8, 0x08#8, 0x09#8, 0x0A#8,
    0x0B#8, 0x0C#8, 0x0D#8, 0x0E#8, 0x10#8, 0x11#8, 0x12#8, 0x13#8, 0x14#8, 0x18#8, 0x20#8, 0x21#8] := by decide

theorem op_init : ∀ r ∈ opcodeTable, fieldOP r.pat = 0x01#8 → r.op = .init := by decide

theorem fillModeOf_reserved {imm : BitVec 8} (h : imm.extractLsb' 1 2 = 0b11#2) : fillModeOf imm = none := by
  rw [fillModeOf, h]
  rfl

/-- Settles O6: a word that decodes has a listed `OP`, and, where it is INIT, a legal fill mode. -/
theorem reservedOpcodeIsIllegal : Obligations.ReservedOpcodeIsIllegal := by
  intro c s hc
  refine perform_illegal (fun i h => ?_) s
  obtain hop | ⟨hop, hfm⟩ := hc
  · rw [fieldOP_of_decode h] at hop
    exact hop (opcodes_listed _ (rowOf_mem i))
  · rw [fieldOP_of_decode h] at hop
    obtain ⟨-, ha⟩ := decode_ok_iff.1 h
    rw [op_init _ (rowOf_mem i) hop] at ha
    obtain ⟨fm, hlegal, -⟩ := assemble_init_iff.1 ha
    rw [fillModeOf_reserved hfm] at hlegal
    cases hlegal

/-- Settles O7: in a word that decodes, every field its row fixes is 0. -/
theorem reservedBitsAreIllegal : Obligations.ReservedBitsAreIllegal := by
  intro c s hc
  refine perform_illegal (fun i h => ?_) s
  obtain hrsv | ⟨hvb, hop⟩ | ⟨himm, hop⟩ | ⟨himm, hop⟩ | ⟨hva, hop⟩ := hc
  · exact hrsv (fieldRSV_of_decode h)
  · exact hvb (fieldVB_of_decode h hop)
  · exact himm (fieldIMM_of_decode h hop)
  · exact himm (initImm_of_decode h hop)
  · exact hva (fieldVA_of_decode h hop)

/-! ### Vectors at or beyond `NV` (R71) -/

/-- Settles O8: `exec_illegal`, and a 4-bit index is below 16. -/
theorem vectorIndexBeyondNVIsIllegal : Obligations.VectorIndexBeyondNVIsIllegal := by
  refine ⟨?beyond, ?sixteen⟩
  case beyond =>
    rintro i s ⟨a, ha, hnv⟩
    have hwf : i.wf s.cfg = false := by
      refine Bool.eq_false_iff.2 fun hwf => ?_
      have := exists_of_wf hwf a ha
      omega
    exact answers_of_exec (exec_illegal hwf)
  case sixteen =>
    intro i c hnv
    refine List.all_eq_true.2 fun a _ => decide_eq_true ?_
    rw [hnv]
    exact a.isLt

/-! ### Operands a command does not read (R61, R64) -/

theorem assemble_ignores_opnd {c : Command} {i : Instr} (hr : readsOpnd i = false)
    (h : (rowOf i).op.assemble c = .ok i) (o : Opnd) : (rowOf i).op.assemble { c with opnd := o } = .ok i := by
  cases i with
  | init va size fm =>
    obtain ⟨fm', hfm, hi⟩ := assemble_init_iff.1 h
    refine assemble_init_iff.2 ⟨fm', hfm, ?_⟩
    cases hsz : (fieldIMM c.cmd).getLsbD 0 with
    | true => rw [hsz] at hi; cases hi; cases hr
    | false => rw [hi, hsz]; rfl
  | testBit | setBit | unsetBit | toggleBit | rdw | wrw => cases hr
  | _ => exact h

theorem assemble_ignores_data {c : Command} {i : Instr} (hr : ∀ va idx d, i ≠ .wrw va idx d)
    (h : (rowOf i).op.assemble c = .ok i) (d : Word) : (rowOf i).op.assemble { c with data := d } = .ok i := by
  cases i with
  | wrw va idx d' => exact absurd rfl (hr va idx d')
  | _ => exact h

/-- Settles O9: the row is found by `CMD` alone, and only WRW and the commands of `readsOpnd` assemble the rest. -/
theorem unusedOperandsAreIgnored : Obligations.UnusedOperandsAreIgnored := by
  intro c i h
  obtain ⟨hm, ha⟩ := decode_ok_iff.1 h
  exact ⟨fun hr o => decode_ok_iff.2 ⟨hm, assemble_ignores_opnd hr ha o⟩,
    fun hr d => decode_ok_iff.2 ⟨hm, assemble_ignores_data hr ha d⟩⟩

/-! ### Words and lines written out (R65, R68, R75) -/

/-- Settles O4, by evaluation. -/
theorem sampleWordsDecode : Obligations.SampleWordsDecode := by
  unfold Obligations.SampleWordsDecode
  decide

/-- Settles O5: both spellings find the same entry of the assembler's table. -/
theorem aliasesAssembleAlike : Obligations.AliasesAssembleAlike := by
  intro a b n
  refine ⟨rfl, rfl, rfl, rfl, rfl, rfl, rfl, rfl, rfl, fun hn => ?_⟩
  have hfits : asOpnd n = some (BitVec.ofNat 64 n) := if_pos hn
  have hform : assembleForm "CLR".toList [.vec a, .lit n] =
      (asOpnd n).bind fun o => (byMnemonic "CLR".toList (formsVN a o)).map fun i => [i] := rfl
  rw [hform, hfits]
  rfl

/-! ### What a step does to the port (R60, R62) -/

/-- A lawful edge without reset at which the pending command completes answers its effect with the response. -/
theorem step_complete {s u : State} {e : Edge} {rest : List Edge} {c : Command} (he : s.edges = e :: rest)
    (hr : e.rst = false) (hb : s.breaksHold e = false) (hp : s.pending e = some c) (hd : e.done = true)
    (hu : perform c { s with edges := rest, offered := s.holding e } = .next u) : step s = .next u.respond := by
  simp only [step, clockEdge, nextEdge_cons he, dropEdge_cons he, hr, hb, hp, hd, complete, hu, Bool.false_eq_true,
    if_false, if_true]

theorem perform_ok {c : Command} {i : Instr} (h : decode c = .ok i) (s : State) : perform c s = exec i s := by
  rw [perform, h]

/-- A host that presented nothing, or still presents what it did, keeps the handshake (R236). -/
theorem breaksHold_of_held {s : State} {e : Edge} (hv : e.cmdValid = true)
    (h : s.offered = none ∨ s.offered = some e.cmd) : s.breaksHold e = false := by
  rw [State.breaksHold]
  obtain h | h := h <;> simp [h, hv]

/-- Settles O10: accepted or in flight, the command is the pending one, and it completes. -/
theorem stepRunsTheDecodedCommand : Obligations.StepRunsTheDecodedCommand := by
  intro s t e rest i he hr hd
  refine ⟨fun hv hready hf hheld hi ht => ?accepted, fun c hf hb hi ht => ?inFlight⟩
  case accepted =>
    have ha : s.accepts e = true := accepts_iff.2 ⟨hr, hv, hready, hf⟩
    have hp : s.pending e = some e.cmd := if_pos ha
    have hhold : s.holding e = none := by simp [State.holding, ha]
    exact step_complete he hr (breaksHold_of_held hv hheld) hp hd (by rwa [perform_ok hi, hhold])
  case inFlight =>
    have ha : s.accepts e = false := accepts_inFlight hf e
    have hp : s.pending e = some c := by simp [State.pending, ha, hf]
    have hhold : s.holding e = if e.cmdValid then some e.cmd else none := by simp [State.holding, ha]
    exact step_complete he hr hb hp hd (by rwa [perform_ok hi, hhold])

/-- With nothing in flight, and nothing presented or the block not ready, nothing is pending. -/
theorem pending_none {s : State} {e : Edge} (hf : s.inFlight = none) (h : e.cmdValid = false ∨ s.cmdReady = false) :
    s.accepts e = false ∧ s.pending e = none := by
  have ha : s.accepts e = false := by
    obtain h | h := h <;> simp [State.accepts, h]
  exact ⟨ha, by simp [State.pending, ha, hf]⟩

/-- Settles O57: with nothing pending, a lawful edge is an idle one, of the list or beyond it. -/
theorem idleEdgeChangesOnlyThePort : Obligations.IdleEdgeChangesOnlyThePort := by
  refine ⟨?listed, ?beyond⟩
  case listed =>
    intro s e rest he hr hb hf hv
    have hne := nextEdge_cons he
    obtain ⟨ha, hp⟩ := pending_none hf hv
    refine ⟨_, step_idle (by rwa [hne]) (by rwa [hne]) (by rwa [hne]), rfl, rfl, by rw [hne]; rfl, ?_⟩
    simp [State.atEdge, State.holding, dropEdge_cons he, hne, ha]
  case beyond =>
    intro s he ho hf
    have hne := nextEdge_nil he
    obtain ⟨ha, hp⟩ := pending_none (e := s.nextEdge) hf (.inl (by rw [hne]))
    refine ⟨_, step_idle (by rw [hne]) (by simp [State.breaksHold, ho]) hp, rfl, rfl, by rw [hne]; rfl, ?_⟩
    simp [State.atEdge, State.holding, dropEdge_nil he, hne, he]

/-- Settles O13: a response cycle has nothing in flight and is not ready, so the next edge completes nothing. -/
theorem responseLastsOneCycle : Obligations.ResponseLastsOneCycle := by
  intro s t hs hv h
  have hready := hs.responding hv
  have hf : s.inFlight = none := by
    cases hc : s.inFlight with
    | none => rfl
    | some c => exact absurd hv (by simp [(hs.busy c hc).2])
  obtain ⟨-, hp⟩ := pending_none (e := s.nextEdge) hf (.inr hready)
  refine ⟨hready, ?_⟩
  obtain ⟨-, -, rfl⟩ | ⟨-, -, ⟨c, u, hc, -⟩ | ⟨c, -, -, rfl⟩ | ⟨-, rfl⟩⟩ := step_cases h
  · rfl
  · rw [hp] at hc; cases hc
  · rfl
  · rfl

/-- Settles O14: of the ways a step answers without a reset, all but the completion leave them alone. -/
theorem stateHoldsBetweenCompletions : Obligations.StateHoldsBetweenCompletions := by
  intro s t hr h hv
  obtain ⟨hr', -⟩ | ⟨-, -, ⟨c, u, -, -, -, rfl⟩ | ⟨c, -, -, rfl⟩ | ⟨-, rfl⟩⟩ := step_cases h
  · rw [hr] at hr'; cases hr'
  · cases hv
  · simp
  · simp

/-- Settles O15: only a completion responds, and it is the pending command's. -/
theorem responseComesFromAcceptedCommand : Obligations.ResponseComesFromAcceptedCommand := by
  intro s t h hv
  obtain ⟨-, -, rfl⟩ | ⟨hr, -, ⟨c, u, hp, -, hu, rfl⟩ | ⟨c, -, -, rfl⟩ | ⟨-, rfl⟩⟩ := step_cases h
  · cases hv
  · exact ⟨c, u, pending_cases hp, hu, rfl, hr⟩
  · cases hv
  · cases hv

/-- Settles O56: only a busy edge leaves a command in flight, and it is the pending one. -/
theorem commandInFlightWasAccepted : Obligations.CommandInFlightWasAccepted := by
  intro s t c h hc
  obtain ⟨-, -, rfl⟩ | ⟨hr, -, ⟨c', u, -, -, -, rfl⟩ | ⟨c', hp, hd, rfl⟩ | ⟨-, rfl⟩⟩ := step_cases h
  · cases hc
  · cases hc
  · cases hc
    exact ⟨hr, hd, pending_cases hp⟩
  · cases hc

/-! ### The pure forms (R76) -/

theorem WritesOp.vec_ne {s t : State} {i : Instr} {x y b : VIdx} {op : VReg → VReg → VReg}
    (hw : WritesOp s.cfg i x y op) (h : exec i s = .next t) (hb : b ≠ x) : t.vec b = s.vec b := by
  cases exec_unique h (hw.2 s rfl)
  exact setVec_vec_other s x _ hb

section pureForms
variable {s : State} {d a b : VIdx} (hs : s.Wf) (hd : d.toNat < s.cfg.nv) (ha : a.toNat < s.cfg.nv)
include hs hd ha

/-- COPY and then an operator on the copy leave in `d` what the operator leaves in `a`, where the operator finds after the
COPY the operands it would find before. -/
theorem issue_copy_operator {x y : VIdx} {i j : Instr} {op : VReg → VReg → VReg}
    (hi : WritesOp s.cfg i d x op) (hj : WritesOp s.cfg j a y op)
    (hop : ∀ m, exec (.copy d a) s = .next m → op (m.vec d) (m.vec x) = op (s.vec a) (s.vec y)) :
    ∃ t u, issue [.copy d a, i] s = .next t ∧ exec j s = .next u ∧ t.vec d = u.vec a ∧
      ∀ b : VIdx, b ≠ d → t.vec b = s.vec b := by
  obtain ⟨m, hm⟩ := exec_next (.copy d a) s
  obtain ⟨t, ht⟩ := exec_next i m
  obtain ⟨u, hu⟩ := exec_next j s
  rw [← exec_cfg hm] at hi
  refine ⟨t, u, by simp only [issue, hm, ht], hu, ?receiver, fun b hb => ?others⟩
  case receiver => rw [hi.vec (exec_wf hs hm) ht, hop m hm, hj.vec hs hu]
  case others => rw [hi.vec_ne ht hb, (writesOp_copy hd ha).vec_ne hm hb]

/-- A pure form of two operands: refused where the COPY would overwrite `vB`, else COPY and the operator on `vD`. -/
theorem pure_binary {p : Pseudo} {i : VIdx → VIdx → Instr} {op : VReg → VReg → VReg}
    (hp : p.expand = expandBinary i d a b) (hi : ∀ x : VIdx, x.toNat < s.cfg.nv → WritesOp s.cfg (i x b) x b op) :
    (d = b ∧ d ≠ a → p.expand = none) ∧
      (¬ (d = b ∧ d ≠ a) → p.expand = some [.copy d a, i d b] ∧
        ∃ t u, issue [.copy d a, i d b] s = .next t ∧ exec (i a b) s = .next u ∧ t.vec d = u.vec a ∧
          ∀ x : VIdx, x ≠ d → t.vec x = s.vec x) := by
  rw [hp]
  refine ⟨fun h => if_pos h, fun h => ⟨if_neg h, issue_copy_operator hs hd ha (hi d hd) (hi a ha) fun m hm => ?_⟩⟩
  have hcopy := writesOp_copy hd ha
  have hd' : m.vec d = s.vec a := hcopy.vec hs hm
  have hb' : m.vec b = s.vec b := by
    by_cases hbd : b = d
    · have hda : d = a := not_not.1 fun hne => h ⟨hbd.symm, hne⟩
      rw [hbd, hd', hda]
    · exact hcopy.vec_ne hm hbd
  rw [hd', hb']

end pureForms

/-- Settles O49: each operator is a function of the vectors it names, which the COPY leaves where it needs them. -/
theorem pureFormsCompute : Obligations.PureFormsCompute := by
  intro s d a b hs hd ha hb
  refine ⟨fun p op hp => ?binary, rfl, ?unary⟩
  case binary =>
    simp only [List.mem_cons, Prod.mk.injEq, List.not_mem_nil, or_false] at hp
    obtain ⟨rfl, rfl⟩ | ⟨rfl, rfl⟩ | ⟨rfl, rfl⟩ := hp
    · exact pure_binary hs hd ha rfl fun x hx => writesOp_andV hx hb
    · exact pure_binary hs hd ha rfl fun x hx => writesOp_orV hx hb
    · exact pure_binary hs hd ha rfl fun x hx => writesOp_xorV hx hb
  case unary =>
    refine issue_copy_operator hs hd ha (writesOp_notV hd) (writesOp_notV ha) fun m hm => ?_
    rw [(writesOp_copy hd ha).vec hs hm]

end Sys2Proof.Machine

/-! ## Proofs of the statements about construction and control (spec/41_construction.md)

What they rest on: what a command that writes its receiver leaves (`WritesOp`), the vector a sized INIT creates read field
by field, and the vector UNFIX leaves. -/

namespace Sys2Proof.Machine

open Sys2Proof.Laws.EncodesInRow (rowOf rowOf_mem)

/-- A command that writes an operation's value answers `OK`, writes its receiver alone, and leaves the value there. -/
theorem WritesOp.ends {s : State} {i : Instr} {va vb : VIdx} {op : VReg → VReg → VReg} (hw : WritesOp s.cfg i va vb op)
    (hs : s.Wf) : ∃ t, exec i s = .next t ∧ s.Ends t 0#4 0#64 [va] ∧ t.vec va = op (s.vec va) (s.vec vb) := by
  have hexec := hw.2 s rfl
  exact ⟨_, hexec, ends_setVec_finish s va _ _ _, hw.vec hs hexec⟩

/-! ### NOP (R100) -/

/-- The row with `OP` 0 fixes every bit of the word, to 0 (R68). -/
theorem nop_row_fixes_word : ∀ r ∈ opcodeTable, fieldOP r.pat = 0x00#8 → r.mask = BitVec.allOnes 32 ∧ r.pat = 0#32 := by
  decide

/-- Of the words with `OP` 0, only the word 0 decodes. -/
theorem cmd_eq_zero_of_decode {c : Command} {i : Instr} (h : decode c = .ok i) (hop : fieldOP c.cmd = 0x00#8) :
    c.cmd = 0#32 := by
  obtain ⟨hm, -⟩ := decode_ok_iff.1 h
  obtain ⟨hmask, hpat⟩ := nop_row_fixes_word _ (rowOf_mem i) (fieldOP_of_decode h ▸ hop)
  rwa [hmask, hpat, BitVec.and_allOnes] at hm

/-- Settles O26: the row of NOP fixes the whole word, and NOP does nothing but answer. -/
theorem nopChangesOnlyTheResponse : Obligations.NopChangesOnlyTheResponse :=
  ⟨fun _ hm => decode_ok_iff.2 ⟨hm, rfl⟩,
    fun _ s hop hne => perform_illegal (fun _ h => hne (cmd_eq_zero_of_decode h hop)) s,
    fun _ => answers_of_exec exec_nop⟩

/-! ### INIT (R101) -/

theorem ceil32_div (n : Nat) : ceil32 n / 32 = (n + 31) / 32 := by rw [ceil32]; omega

/-! The vector of a sized INIT that fits its storage, read field by field. -/

section sized
variable {nb n : Nat} (hnb : nb ≤ 2 ^ 32) (hn : n ≤ nb * 32) (fm : FillMode)

include hnb hn

theorem sized_len : (VReg.sized n fm).len.toNat = (n + 31) / 32 := by
  have hceil := ceil32_le hn
  rw [← ceil32_div]
  exact toNat_len_ofNat (by omega)

theorem sized_cap : (VReg.sized n fm).cap.toNat = (n + 31) / 32 * 32 := by
  have hceil := ceil32_le hn
  exact toNat_cap_ofNat (n := ceil32 n) (by omega)

end sized

theorem sized_word (n : Nat) (fm : FillMode) (i : Nat) :
    (VReg.sized n fm).word i = if i < (n + 31) / 32 ∧ fm = .ones then 0xFFFFFFFF#32 else 0#32 := by
  have hread : (VReg.sized n fm).word i = if i < ceil32 n / 32 then fillModeWord fm else 0#32 := Store.read_filled _ _ _
  rw [hread, ceil32_div]
  cases fm <;> simp [fillModeWord]

/-- Settles O27: each form is a write of its receiver, by the vector `VReg.empty` or `VReg.sized`. -/
theorem initCreatesTheVector : Obligations.InitCreatesTheVector := by
  refine ⟨fun c hm fm hfm => ?decodes, fun c s hm hfm => ?fillMode, fun s va size fm hnv => ?noVector,
    fun s va fm hs ha => ⟨?unsized, fun n hn => ?tooLarge, fun n hn => ?sized⟩⟩
  case decodes => exact decode_ok_iff.2 ⟨hm, assemble_init_iff.2 ⟨fm, hfm, rfl⟩⟩
  case fillMode =>
    have hop : fieldOP c.cmd = 0x01#8 := field_eq_of_match hm (by decide)
    exact reservedOpcodeIsIllegal c s (.inr ⟨hop, hfm⟩)
  case noVector => exact vectorIndexBeyondNVIsIllegal.1 _ s ⟨va, List.mem_singleton_self va, hnv⟩
  case unsized =>
    obtain ⟨t, hexec, hends, hvec⟩ := (writesOp_init_unsized ha fm).ends hs
    refine ⟨t, hexec, hends, ?_⟩
    rw [hvec]
    exact ⟨rfl, rfl, rfl, empty_word⟩
  case tooLarge => exact answers_of_exec (exec_init_size ha fm hn)
  case sized =>
    obtain ⟨t, hexec, hends, hvec⟩ := (writesOp_init_sized ha fm hn).ends hs
    refine ⟨t, hexec, hends, ?_⟩
    rw [hvec]
    exact ⟨rfl, sized_cap s.cfg.nb_le hn fm, sized_len s.cfg.nb_le hn fm, sized_word _ fm⟩

/-! ### UNFIX (R102) -/

/-- On an unfixed vector, whose capacity is 0 already, UNFIX has nothing to clear (R28). -/
theorem unfix_eq_self {nb : Nat} {v : VReg} (h : v.Wf nb) (hf : v.fixed = false) :
    { v with fixed := false, cap := 0#38 } = v := by
  rw [← hf, ← h.unfixed_cap hf]

/-- Settles O29: UNFIX writes the flag and the capacity only, and both arms of the count agree. -/
theorem unfixKeepsLengthAndWords : Obligations.UnfixKeepsLengthAndWords := by
  refine ⟨fun c hm => decode_ok_iff.2 ⟨hm, rfl⟩, fun s va hs ha => ?_⟩
  have hv := hs.vectors va ha
  have hcount := (VRegWf.count_eq (unfix_wf hv)).trans (VRegWf.count_eq hv).symm
  obtain ⟨t, hexec, hends, hvec⟩ := (writesOp_unfix ha).ends hs
  refine ⟨t, hexec, hends, ?_⟩
  rw [hvec]
  exact ⟨rfl, rfl, rfl, fun _ => rfl, hcount, fun _ hc => Bool.false_ne_true hc.1, unfix_eq_self hv⟩

end Sys2Proof.Machine

/-! ## Proofs of the statements about bit access (spec/42_bit_access.md)

What they rest on: the offset decode as division by 32, what TEST reads of any vector, the three ways a bit command that
writes can end, and which commands can answer `GROW`. -/

namespace Sys2Proof.Machine

/-! ### The offset decode and the extension step (R120, R122) -/

theorem bucketIndex_lt (off : Opnd) : bucketIndex off < 2 ^ 59 := by
  have := off.isLt
  rw [bucketIndex_eq]
  omega

/-- Settles O30: index and position are quotient and remainder by 32, and the mask is one-hot. -/
theorem offsetDecodeLosesNothing : Obligations.OffsetDecodeLosesNothing := by
  refine fun off => ⟨bucketIndex_lt off, bitPosition_lt off, ?_, fun _ => bitMask_getLsbD⟩
  rw [bucketIndex_eq, bitPosition_eq]
  exact Nat.div_add_mod _ 32

/-- The vector the extension step makes of one that ends at or before an index of the storage (R122). -/
theorem extend_fit {nb : Nat} {v : VReg} {idx : Nat} (hl : v.len.toNat ≤ idx) (hnb : idx < nb) :
    v.extend nb idx =
      some { v with buckets := v.buckets.zeroRange v.len.toNat (idx + 1), len := BitVec.ofNat 33 (idx + 1) } := by
  rw [VReg.extend, if_neg (by omega), if_neg (by omega)]

/-- Settles O31, branch by branch; the extended vector is read through the zeroing of a bucket range. -/
theorem extensionZeroFills : Obligations.ExtensionZeroFills := by
  intro c v idx
  refine ⟨fun hlt => if_pos hlt, extend_grow, fun hl hnb => ?_⟩
  refine ⟨_, extend_fit hl hnb, ?_, rfl, rfl, fun _ => Store.read_zeroRange⟩
  have := c.nb_le
  exact toNat_len_ofNat (by omega)

/-! ### The commands that read a vector (R123, R127 to R129) -/

/-- A flag in `RESULT` is 1 or 0. -/
theorem ofBool_zeroExtend (b : Bool) : (BitVec.ofBool b).zeroExtend 64 = if b then 1#64 else 0#64 := by
  cases b <;> rfl

/-- The clamp in the words of R121. -/
theorem clamped_iff_clamps {v : VReg} {off : Nat} : v.clamped off = true ↔ Clamps v off := clamped_iff

/-- On any vector TEST reads the bit space, but for 0 where clamped or beyond the length (R123). -/
theorem testedBit_iff (v : VReg) (off : Opnd) :
    v.testedBit off = true ↔ ¬ Clamps v off.toNat ∧ off.toNat / 32 < v.len.toNat ∧ v.bit off.toNat = true := by
  simp [VReg.testedBit, VReg.bit, bucketIndex_eq, bitPosition_eq, ← clamped_iff_clamps]

/-- TEST answers the tested bit, whether the vector is well formed or not. -/
theorem answers_testedBit {s : State} {va : VIdx} (ha : va.toNat < s.cfg.nv) (off : Opnd) :
    Answers (.testBit va off) s 0#4 (if (s.vec va).testedBit off then 1#64 else 0#64) := by
  rw [← ofBool_zeroExtend]
  exact answers_of_exec (exec_testBit ha off)

/-- Settles O32, from what TEST reads of any vector. -/
theorem testReadsOneBit : Obligations.TestReadsOneBit := by
  refine ⟨fun c hm => decode_ok_iff.2 ⟨hm, rfl⟩, fun s va off ha => ⟨fun h => ?zero, fun hc hl => ?bit⟩⟩
  all_goals have hanswer := answers_testedBit ha off
  case zero =>
    have hbit : ¬ (s.vec va).testedBit off = true := by
      rw [testedBit_iff]
      rintro ⟨hc, hl, -⟩
      exact h.elim hc (not_le.2 hl)
    rwa [if_neg hbit] at hanswer
  case bit =>
    have hbit : (s.vec va).testedBit off = (s.vec va).bit off.toNat :=
      Bool.eq_iff_iff.2 ((testedBit_iff _ _).trans (by simp [hc, hl]))
    rwa [hbit] at hanswer

/-- Settles O36: the count, which both arms of R29 give as 32 bits per bucket, fits `RESULT`. -/
theorem countIsTheAddressableWidth : Obligations.CountIsTheAddressableWidth := by
  refine ⟨fun c hm => decode_ok_iff.2 ⟨hm, rfl⟩, fun s va hs ha => ⟨_, answers_of_exec (exec_count ha), ?_⟩⟩
  have hv := hs.vectors va ha
  have hle := hv.len_le
  have hnb := s.cfg.nb_le
  have hr : (BitVec.ofNat 64 (s.vec va).count).toNat = (s.vec va).len.toNat * 32 := by
    rw [VRegWf.count_eq hv, BitVec.toNat_ofNat]
    omega
  rw [hr]
  exact ⟨fun hf => (hv.fixed_cap hf).symm, fun _ => rfl, rfl, by omega, by omega⟩

/-- Settles O37: the length is zero-extended, and R28 ties it to the capacity. -/
theorem rdlenReadsTheBucketCount : Obligations.RdlenReadsTheBucketCount := by
  refine ⟨fun c hm => decode_ok_iff.2 ⟨hm, rfl⟩, fun s va hs ha => ⟨_, answers_of_exec (exec_rdlen ha), ?_⟩⟩
  have hlen : ((s.vec va).len.zeroExtend 64).toNat = (s.vec va).len.toNat := BitVec.toNat_setWidth_of_le (by decide)
  refine ⟨hlen, fun hf => ?_⟩
  rw [hlen, (hs.vectors va ha).fixed_cap hf, Nat.mul_div_cancel _ (by decide)]

/-- Settles O38: the flag is zero-extended. -/
theorem rdfixReadsTheFixedFlag : Obligations.RdfixReadsTheFixedFlag := by
  refine ⟨fun c hm => decode_ok_iff.2 ⟨hm, rfl⟩, fun s va ha => ?_⟩
  rw [← ofBool_zeroExtend]
  exact answers_of_exec (exec_rdfix ha)

/-! ### The commands that write one bit (R124 to R126) -/

/-- A `GROW` result that fits the register is the bucket count needed (R202). -/
theorem growResult_toNat {n : Nat} (h : n < 2 ^ 64) : (growResult n).toNat = n := by
  rw [growResult, if_pos h, BitVec.toNat_ofNat, Nat.mod_eq_of_lt h]

theorem growResult_bucketIndex (off : Opnd) : (growResult (bucketIndex off + 1)).toNat = bucketIndex off + 1 := by
  have := bucketIndex_lt off
  exact growResult_toNat (by omega)

/-- The command combines the bucket of its offset with the one-hot mask, by a word operation that makes `new` of a bit where
the mask is 1 and keeps it where the mask is 0. -/
def CombinesWithMask (i : VIdx → Opnd → Instr) (new : Bool → Bool) : Prop :=
  ∃ f : Word → Word → Word,
    (∀ va off, bucketWrite (i va off) =
      some ⟨va, fun v => v.clamped off.toNat, bucketIndex off, fun w => f w (bitMask (bitPosition off))⟩) ∧
    ∀ w m : Word, ∀ j < 32, (f w m).getLsbD j = if m.getLsbD j then new (w.getLsbD j) else w.getLsbD j

theorem setBit_combines : CombinesWithMask .setBit fun _ => true := ⟨_, fun _ _ => rfl, set_bits⟩

theorem unsetBit_combines : CombinesWithMask .unsetBit fun _ => false := ⟨_, fun _ _ => rfl, unset_bits⟩

theorem toggleBit_combines : CombinesWithMask .toggleBit fun b => !b := ⟨_, fun _ _ => rfl, toggle_bits⟩

/-- No bit of a well-formed vector is set at a clamped offset. -/
theorem bit_of_clamps {nb : Nat} {v : VReg} (h : v.Wf nb) {k : Nat} (hc : Clamps v k) : v.bit k = false := by
  obtain ⟨hf, hle⟩ := hc
  have hcap := h.fixed_cap hf
  exact bit_beyond h (by omega)

namespace CombinesWithMask

variable {i : VIdx → Opnd → Instr} {new : Bool → Bool} {s t : State} {va : VIdx} {off : Opnd}

/-- The three ways such a command ends: clamped; beyond storage; with the one bit written. -/
theorem outcomes (hi : CombinesWithMask i new) (hs : s.Wf) (ha : va.toNat < s.cfg.nv) :
    (Clamps (s.vec va) off.toNat ∧ exec (i va off) s = .next (s.finish statusOK 0#64)) ∨
    (¬ Clamps (s.vec va) off.toNat ∧ s.cfg.nb ≤ off.toNat / 32 ∧
      exec (i va off) s = .next (s.raiseGrow (bucketIndex off + 1))) ∨
    (¬ Clamps (s.vec va) off.toNat ∧ off.toNat / 32 < s.cfg.nb ∧
      ∃ v, exec (i va off) s = .next ((s.setVec va v).finish statusOK 0#64) ∧ v.fixed = (s.vec va).fixed ∧
        v.cap = (s.vec va).cap ∧ v.len.toNat = max (s.vec va).len.toNat (off.toNat / 32 + 1) ∧
        ∀ k, v.bit k = if k = off.toNat then new ((s.vec va).bit k) else (s.vec va).bit k) := by
  obtain ⟨f, hb, hf⟩ := hi
  rw [← bucketIndex_eq]
  obtain ⟨hc, he⟩ | ⟨hc, -, hnb, he⟩ | ⟨hc, hnb, v, he, -, hlen, hfix, hcap, hword⟩ :=
    exec_bucketWrite_cases (hb va off) hs ha
  · exact .inl ⟨clamped_iff_clamps.1 hc, he⟩
  · exact .inr (.inl ⟨clamped_iff_clamps.not.1 hc, hnb, he⟩)
  · exact .inr (.inr ⟨clamped_iff_clamps.not.1 hc, hnb, v, he, hfix, hcap, hlen, bit_of_words hf hword⟩)

/-- The three clauses of `WritesOneBit` are the three ways to end. -/
theorem writesOneBit (hi : CombinesWithMask i new) : WritesOneBit i new := by
  intro s va off hs ha
  obtain ⟨hc, he⟩ | ⟨hc, hnb, he⟩ | ⟨hc, hnb, v, he, hv⟩ := hi.outcomes (off := off) hs ha
  · exact ⟨fun _ => answers_of_exec he, fun hc' => absurd hc hc', fun hc' => absurd hc hc'⟩
  · refine ⟨fun hc' => absurd hc' hc, fun _ _ => ⟨_, answers_of_exec he, ?_⟩, fun _ hlt => absurd hlt (by omega)⟩
    rw [growResult_bucketIndex, bucketIndex_eq]
  · refine ⟨fun hc' => absurd hc' hc, fun _ hge => absurd hge (by omega),
      fun _ _ => ⟨_, he, ends_setVec_finish s va v _ _, ?_⟩⟩
    rwa [written_vec hs ha]

section run
variable (hi : CombinesWithMask i new) (hs : s.Wf) (ha : va.toNat < s.cfg.nv) (h : exec (i va off) s = .next t)
include hi hs ha h

/-- On a clamped offset only the response changes (R121). -/
theorem eq_finish_of_clamps (hc : Clamps (s.vec va) off.toNat) : t = s.finish statusOK 0#64 := by
  obtain ⟨-, he⟩ | ⟨hc', -⟩ | ⟨hc', -⟩ := hi.outcomes (off := off) hs ha
  · exact exec_unique h he
  · exact absurd hc hc'
  · exact absurd hc hc'

/-- Where it answers `OK` and is not clamped, the bit at the offset is the new one. -/
theorem bit_of_ok (hok : t.status = 0#4) (hc : ¬ Clamps (s.vec va) off.toNat) :
    (t.vec va).bit off.toNat = new ((s.vec va).bit off.toNat) := by
  obtain ⟨hc', -⟩ | ⟨-, -, he⟩ | ⟨-, -, v, he, -, -, -, hbit⟩ := hi.outcomes (off := off) hs ha
  · exact absurd hc' hc
  · cases exec_unique h he
    cases hok
  · cases exec_unique h he
    rw [written_vec hs ha, hbit, if_pos rfl]

/-- Every other bit is as before, however the command ends. -/
theorem bit_ne {k : Nat} (hk : k ≠ off.toNat) : (t.vec va).bit k = (s.vec va).bit k := by
  obtain ⟨-, he⟩ | ⟨-, -, he⟩ | ⟨-, -, v, he, -, -, -, hbit⟩ := hi.outcomes (off := off) hs ha <;>
    cases exec_unique h he
  · rfl
  · rfl
  · rw [written_vec hs ha, hbit, if_neg hk]

end run

end CombinesWithMask

/-- Settles O33: SET combines by `|||`. -/
theorem setWritesOne : Obligations.SetWritesOne :=
  ⟨fun _ hm => decode_ok_iff.2 ⟨hm, rfl⟩, setBit_combines.writesOneBit⟩

/-- Settles O34: UNSET combines by `&&& ~~~`. -/
theorem unsetWritesZero : Obligations.UnsetWritesZero :=
  ⟨fun _ hm => decode_ok_iff.2 ⟨hm, rfl⟩, unsetBit_combines.writesOneBit⟩

/-- Settles O35: TOGGLE combines by `^^^`. -/
theorem toggleInvertsTheBit : Obligations.ToggleInvertsTheBit :=
  ⟨fun _ hm => decode_ok_iff.2 ⟨hm, rfl⟩, toggleBit_combines.writesOneBit⟩

/-! ### The laws of the bit commands (R130) -/

/-- After an UNSET that answers `OK` the bit is 0: written, or clamped and never set. -/
theorem bit_of_unset_ok {s t : State} {va : VIdx} {off : Opnd} (hs : s.Wf) (ha : va.toNat < s.cfg.nv)
    (h : exec (.unsetBit va off) s = .next t) (hok : t.status = 0#4) : (t.vec va).bit off.toNat = false := by
  by_cases hc : Clamps (s.vec va) off.toNat
  · rw [unsetBit_combines.eq_finish_of_clamps hs ha h hc]
    exact bit_of_clamps (hs.vectors va ha) hc
  · exact unsetBit_combines.bit_of_ok hs ha h hok hc

/-- TEST answers the bit that the command before it left. -/
theorem answers_testBit_after {i : Instr} {s t : State} {va : VIdx} {off : Opnd} {b : Bool} (hs : s.Wf)
    (ha : va.toNat < s.cfg.nv) (h : exec i s = .next t) (hb : (t.vec va).bit off.toNat = b) :
    Answers (.testBit va off) t 0#4 (if b then 1#64 else 0#64) :=
  hb ▸ answers_testBit (exec_wf hs h) (exec_cfg h ▸ ha) off

/-- Settles O39, law by law. -/
theorem bitCommandLaws : Obligations.BitCommandLaws := by
  intro s va k hs ha
  refine ⟨fun ready es n => ?reset, fun fm t h => ?init, fun t h hok hc => ?set, fun t u h _ h' hok => ?unset,
    fun t u h _ h' _ => (toggleBit_twice hs ha h h').1, fun i t hmem h hc => ?clamped,
    fun hc => (testReadsOneBit.2 s va k ha).1 (.inl hc), fun i t hmem h j hj => ?others⟩
  case reset => exact testBit_empty (s := State.resetOf _ _ _ _) ha (resetOf_vec _ _ _ _ va) k
  case init =>
    have hvec := (writesOp_init_unsized ha fm).vec hs h
    exact testBit_empty (exec_cfg h ▸ ha) hvec k
  case set => exact answers_testBit_after hs ha h (setBit_combines.bit_of_ok hs ha h hok hc)
  case unset =>
    have ht := exec_wf hs h
    have ha' : va.toNat < t.cfg.nv := exec_cfg h ▸ ha
    exact answers_testBit_after ht ha' h' (bit_of_unset_ok ht ha' h' hok)
  case clamped =>
    have ht : t = s.finish statusOK 0#64 := by
      simp only [List.mem_cons, List.not_mem_nil, or_false] at hmem
      obtain rfl | rfl | rfl := hmem
      · exact setBit_combines.eq_finish_of_clamps hs ha h hc
      · exact unsetBit_combines.eq_finish_of_clamps hs ha h hc
      · exact toggleBit_combines.eq_finish_of_clamps hs ha h hc
    rw [ht]
    rfl
  case others =>
    simp only [List.mem_cons, List.not_mem_nil, or_false] at hmem
    obtain rfl | rfl | rfl | rfl := hmem
    · rw [exec_vec_other h (b := va) nofun]
    · exact setBit_combines.bit_ne hs ha h hj
    · exact unsetBit_combines.bit_ne hs ha h hj
    · exact toggleBit_combines.bit_ne hs ha h hj

/-! ### Which commands answer GROW (R139, R202) -/

/-- On vectors that exist, a command that neither writes through the write datapath nor sizes its receiver answers `OK`. -/
theorem exec_ok {i : Instr} {s t : State} (hwf : i.wf s.cfg = true) (hb : bucketWrite i = none)
    (hi : ∀ va n fm, i ≠ .init va (some n) fm) (h : exec i s = .next t) : t.status = statusOK := by
  cases i with
  | setBit | unsetBit | toggleBit | wrw => cases hb
  | nop =>
    cases h
    rfl
  | init va size fm =>
    cases size with
    | none =>
      cases exec_unique h (exec_init_unsized ((wf_one rfl).1 hwf) fm)
      rfl
    | some n => exact absurd rfl (hi va n fm)
  | unfix va | testBit va | count va | rdlen va | rdfix va | fill va | notV va | rdw va =>
    cases h
    exact congrArg State.status (onVector_legal ((wf_one rfl).1 hwf) _)
  | copy va vb | andV va vb | orV va vb | xorV va vb | eqV va vb =>
    obtain ⟨ha, hvb⟩ := (wf_two rfl).1 hwf
    cases h
    exact congrArg State.status (onVectors_legal ha hvb _)

/-- `GROW` comes from a write of one bucket alone, with the bucket count it needs. -/
theorem grow_of_exec {i : Instr} {s t : State} (hs : s.Wf) (h : exec i s = .next t) (hg : t.status = statusGROW) :
    ∃ b, bucketWrite i = some b ∧ t = s.raiseGrow (b.idx + 1) := by
  cases hwf : i.wf s.cfg with
  | false =>
    cases exec_unique h (exec_illegal hwf)
    cases hg
  | true =>
    cases hb : bucketWrite i with
    | some b =>
      have ha := exists_of_wf hwf b.va (receiver_mem_vectors (bucketWrite_receiver hb))
      refine ⟨b, rfl, ?_⟩
      obtain ⟨-, he⟩ | ⟨-, -, -, he⟩ | ⟨-, -, v, he, -⟩ := exec_bucketWrite_cases hb hs ha <;> cases exec_unique h he
      · cases hg
      · rfl
      · cases hg
    | none =>
      by_cases hi : ∃ va n fm, i = .init va (some n) fm
      · obtain ⟨va, n, fm, rfl⟩ := hi
        have ha := (wf_one rfl).1 hwf
        by_cases hn : n.toNat ≤ s.cfg.nb * 32
        · cases exec_unique h (exec_init_sized ha fm hn)
          cases hg
        · cases exec_unique h (exec_init_size ha fm (not_le.1 hn))
          cases hg
      · have hok := exec_ok hwf hb (fun va n fm he => hi ⟨va, n, fm, he⟩) h
        cases hok.symm.trans hg

/-- Every write of one bucket but WRW's finds its bucket from a bit offset. -/
theorem bucketWrite_idx {i : Instr} {b : BucketWrite} (hb : bucketWrite i = some b) (hi : ∀ va idx d, i ≠ .wrw va idx d) :
    ∃ off, b.idx = bucketIndex off := by
  cases i with
  | setBit va off | unsetBit va off | toggleBit va off =>
    cases hb
    exact ⟨off, rfl⟩
  | wrw va idx d => exact absurd rfl (hi va idx d)
  | _ => cases hb

/-- Settles O24: R27 and R28 bound the state, and a bit command's `GROW` needs one bucket more than its index. -/
theorem valuesFitTheirWidths : Obligations.ValuesFitTheirWidths := by
  intro s a hs ha
  have hv := hs.vectors a ha
  have hlen := hv.len_le
  have hcap := hv.cap_le
  have hcount := VRegWf.count_eq hv
  have hnb := s.cfg.nb_le
  refine ⟨by omega, by omega, by omega, bucketIndex_lt, fun i t h hg hi => ?grow⟩
  case grow =>
    obtain ⟨b, hb, rfl⟩ := grow_of_exec hs h hg
    obtain ⟨off, hidx⟩ := bucketWrite_idx hb hi
    have hresult : (s.raiseGrow (b.idx + 1)).result.toNat = bucketIndex off + 1 := by
      rw [hidx]
      exact growResult_bucketIndex off
    have hlt := bucketIndex_lt off
    omega

end Sys2Proof.Machine

/-! ## Proofs of the statements about the word-parallel engines (spec/43_word_parallel.md)

What they rest on: that each engine writes its receiver as a function of its operands (`WritesOp`) which keeps the
length, the fixed flag and the capacity, and the words that function leaves. -/

namespace Sys2Proof.Machine

/-! ### The words an engine leaves (R140) -/

/-- An engine whose operation keeps flag, capacity and length rewrites the words of its receiver and nothing else. -/
theorem WritesOp.rewrites {s : State} {i : Instr} {va vb : VIdx} {op : VReg → VReg → VReg} {w : Nat → Word}
    (hw : WritesOp s.cfg i va vb op) (hs : s.Wf) (hfixed : ∀ v v', (op v v').fixed = v.fixed)
    (hcap : ∀ v v', (op v v').cap = v.cap) (hlen : ∀ v v', (op v v').len = v.len)
    (hword : ∀ k, (op (s.vec va) (s.vec vb)).word k = w k) : Rewrites i s va w := by
  obtain ⟨t, hexec, hends, hvec⟩ := hw.ends hs
  refine ⟨t, hexec, hends, ?_⟩
  rw [hvec]
  exact ⟨hfixed _ _, hcap _ _, hlen _ _, hword⟩

/-- FILL and NOT: a loop over every existing bucket leaves the buckets beyond the length zero. -/
theorem mapWords_existing_word {nb : Nat} {v : VReg} (h : v.Wf nb) (f : Nat → Word → Word) (i : Nat) :
    (v.mapWords 0 v.len.toNat f).word i = if i < v.len.toNat then f i (v.word i) else 0#32 := by
  rw [(mapWords_spec v 0 _ f h.canonical).2]
  by_cases hi : i < v.len.toNat
  · rw [if_pos ⟨Nat.zero_le i, hi⟩, if_pos hi]
  · rw [if_neg fun hr => hi hr.2, if_neg hi, h.zero_beyond i (not_lt.1 hi)]

/-- Settles O40: FILL's loop covers exactly the existing buckets. -/
theorem fillOverwritesExistingBuckets : Obligations.FillOverwritesExistingBuckets :=
  ⟨fun _ hm => decode_ok_iff.2 ⟨hm, rfl⟩, fun _ va imm hs ha =>
    (writesOp_fill ha imm).rewrites hs (fun _ _ => rfl) (fun _ _ => rfl) (fun _ _ => rfl)
      (mapWords_existing_word (hs.vectors va ha) fun _ _ => fillWord imm)⟩

/-- Settles O41: NOT's loop covers exactly the existing buckets. -/
theorem notComplementsExistingBuckets : Obligations.NotComplementsExistingBuckets :=
  ⟨fun _ hm => decode_ok_iff.2 ⟨hm, rfl⟩, fun _ va hs ha =>
    (writesOp_notV ha).rewrites hs (fun _ _ => rfl) (fun _ _ => rfl) (fun _ _ => rfl)
      (mapWords_existing_word (hs.vectors va ha) fun _ w => ~~~w)⟩

/-- Settles O42: the words AND leaves, from `andWith_word`. -/
theorem andClearsTheTail : Obligations.AndClearsTheTail :=
  ⟨fun _ hm => decode_ok_iff.2 ⟨hm, rfl⟩, fun s va vb hs ha hb =>
    (writesOp_andV ha hb).rewrites hs andWith_fixed andWith_cap andWith_len
      (andWith_word (hs.vectors va ha) (s.vec vb))⟩

/-- Settles O43: the words OR leaves, from `combine_word`. -/
theorem orLeavesTheTail : Obligations.OrLeavesTheTail :=
  ⟨fun _ hm => decode_ok_iff.2 ⟨hm, rfl⟩, fun s va vb hs ha hb =>
    (writesOp_orV ha hb).rewrites hs (fun _ _ => rfl) (fun _ _ => rfl) (fun _ _ => rfl)
      (combine_word (s.vec va) (s.vec vb) _ (hs.vectors va ha).canonical)⟩

/-- Settles O44: the words XOR leaves, from `combine_word`. -/
theorem xorLeavesTheTail : Obligations.XorLeavesTheTail :=
  ⟨fun _ hm => decode_ok_iff.2 ⟨hm, rfl⟩, fun s va vb hs ha hb =>
    (writesOp_xorV ha hb).rewrites hs (fun _ _ => rfl) (fun _ _ => rfl) (fun _ _ => rfl)
      (combine_word (s.vec va) (s.vec vb) _ (hs.vectors va ha).canonical)⟩

/-! ### Laws of the operations (R147) -/

section operations
variable {nb : Nat} {a b : VReg} (ha : a.Wf nb) (hb : b.Wf nb)
include ha

theorem xor_self_word (i : Nat) : (a.combine a fun x y => x ^^^ y).word i = 0#32 := by
  rw [combine_word _ _ _ ha.canonical, BitVec.xor_self, min_self]
  split
  · rfl
  · next hi => exact ha.zero_beyond i (not_lt.1 hi)

include hb

/-- AND commutes in the words it leaves; only the length tells the two orders apart. -/
theorem andWith_word_comm (i : Nat) : (a.andWith b).word i = (b.andWith a).word i := by
  rw [andWith_word ha, andWith_word hb, min_comm, BitVec.and_comm]

/-- OR and XOR commute in the words they leave where the operands have one length: there is no tail to keep. -/
theorem combine_word_comm {f : Word → Word → Word} (hf : ∀ x y, f x y = f y x) (hlen : a.len = b.len) (i : Nat) :
    (a.combine b f).word i = (b.combine a f).word i := by
  rw [combine_word _ _ _ ha.canonical, combine_word _ _ _ hb.canonical, min_comm, hf]
  split
  · rfl
  · next hi =>
    rw [hlen, min_self, not_lt] at hi
    rw [ha.zero_beyond i (hlen ▸ hi), hb.zero_beyond i hi]

/-- OR into a vector of zero words gives the second operand's words below the receiver's length. -/
theorem or_word_of_zero (hzero : ∀ i, a.word i = 0#32) (i : Nat) :
    (a.combine b fun x y => x ||| y).word i = if i < a.len.toNat then b.word i else 0#32 := by
  rw [combine_word _ _ _ ha.canonical, hzero, BitVec.zero_or]
  by_cases hia : i < a.len.toNat
  · by_cases hib : i < b.len.toNat
    · rw [if_pos (lt_min hia hib), if_pos hia]
    · rw [if_neg fun hi => hib (lt_min_iff.1 hi).2, if_pos hia, hb.zero_beyond i (not_lt.1 hib)]
  · rw [if_neg fun hi => hia (lt_min_iff.1 hi).1, if_neg hia]

end operations

/-! ### Laws of the engines (R147) -/

section engines
variable {s : State} {x y : VIdx} (hs : s.Wf) (hx : x.toNat < s.cfg.nv) (hy : y.toNat < s.cfg.nv)
include hs

/-- (a): the two orders of an engine leave vectors of their own receivers' lengths, and the same words where the
operands have one length. -/
theorem WritesOp.commute {i j : Instr} {op : VReg → VReg → VReg} (hxy : WritesOp s.cfg i x y op)
    (hyx : WritesOp s.cfg j y x op) (hlen : ∀ v w, (op v w).len = v.len)
    (hword : (s.vec x).len = (s.vec y).len → ∀ k, (op (s.vec x) (s.vec y)).word k = (op (s.vec y) (s.vec x)).word k)
    {t u : State} (h : exec i s = .next t) (h' : exec j s = .next u) :
    ((s.vec x).len = (s.vec y).len → (t.vec x).len = (u.vec y).len ∧ ∀ k, (t.vec x).word k = (u.vec y).word k) ∧
      ((s.vec x).len ≠ (s.vec y).len → (t.vec x).len ≠ (u.vec y).len) := by
  rw [hxy.vec hs h, hyx.vec hs h', hlen, hlen]
  exact ⟨fun he => ⟨he, hword he⟩, id⟩

include hx hy

/-- (e): FILL with 0 leaves zero words, and OR then the words of `y` below the length of `x`. -/
theorem fill_zero_then_or {t u : State} (h : exec (.fill x 0#8) s = .next t) (h' : exec (.orV x y) t = .next u) :
    (u.vec x).len = (s.vec x).len ∧ (y ≠ x → t.vec y = s.vec y) ∧
      ∀ i, (u.vec x).word i = if i < (s.vec x).len.toNat then (t.vec y).word i else 0#32 := by
  have hv := hs.vectors x hx
  have hw := writesOp_fill hx 0#8
  have hfill := hw.vec hs h
  have ht := exec_wf hs h
  rw [← exec_cfg h] at hx hy
  have hzero : ∀ i, (t.vec x).word i = 0#32 := fun i => by
    rw [hfill, mapWords_existing_word hv]
    exact ite_self _
  have hlen : (t.vec x).len = (s.vec x).len := by rw [hfill, mapWords_len]
  rw [(writesOp_orV hx hy).vec ht h', ← hlen]
  exact ⟨rfl, hw.vec_ne h, or_word_of_zero (ht.vectors x hx) (ht.vectors y hy) hzero⟩

end engines

/-- Settles O45: each law of the engines from the law of the operations they write. -/
theorem engineLaws : Obligations.EngineLaws := by
  intro s x y hs hx hy
  have hvx := hs.vectors x hx
  have hvy := hs.vectors y hy
  refine ⟨fun op t u hop h h' => ?commute, fun op t hop h => ?idempotent, fun t h => ?xorSelf,
    fun _ _ => notV_twice hs hx, fun _ _ => xorV_twice hs hx hy, fun _ _ => fill_zero_then_or hs hx hy⟩
  case commute =>
    simp only [List.mem_cons, List.not_mem_nil, or_false] at hop
    obtain rfl | rfl | rfl := hop
    · exact (writesOp_andV hx hy).commute hs (writesOp_andV hy hx) andWith_len
        (fun _ => andWith_word_comm hvx hvy) h h'
    · exact (writesOp_orV hx hy).commute hs (writesOp_orV hy hx) (fun _ _ => rfl)
        (combine_word_comm hvx hvy BitVec.or_comm) h h'
    · exact (writesOp_xorV hx hy).commute hs (writesOp_xorV hy hx) (fun _ _ => rfl)
        (combine_word_comm hvx hvy BitVec.xor_comm) h h'
  case idempotent =>
    simp only [List.mem_cons, List.not_mem_nil, or_false] at hop
    obtain rfl | rfl := hop
    · rw [(writesOp_andV hx hx).vec hs h, and_self_vector hvx]
    · rw [(writesOp_orV hx hx).vec hs h, or_self_vector hvx]
  case xorSelf =>
    rw [(writesOp_xorV hx hx).vec hs h]
    exact ⟨rfl, xor_self_word hvx⟩

end Sys2Proof.Machine

/-! ## Proofs of the statements about comparison and copy (spec/44_compare_copy.md)

What they rest on: the verdict of EQ (`VReg.sameBits`) in the words of R160, which makes it an equivalence, and that COPY
leaves in its receiver the vector its source holds (`WritesOp`). -/

namespace Sys2Proof.Machine

/-! ### EQ (R160) -/

/-- The verdict of EQ: one length, and the same words below it. -/
theorem sameBits_iff {v w : VReg} :
    v.sameBits w = true ↔ v.len = w.len ∧ ∀ i < v.len.toNat, v.word i = w.word i := by
  rw [VReg.sameBits, Bool.and_eq_true, beq_iff_eq, Store.sameBelow_iff]
  rfl

theorem sameBits_refl (v : VReg) : v.sameBits v = true := sameBits_iff.2 ⟨rfl, fun _ _ => rfl⟩

theorem sameBits_symm {v w : VReg} (h : v.sameBits w = true) : w.sameBits v = true := by
  obtain ⟨hlen, hword⟩ := sameBits_iff.1 h
  exact sameBits_iff.2 ⟨hlen.symm, fun i hi => (hword i (hlen ▸ hi)).symm⟩

theorem sameBits_trans {u v w : VReg} (h : u.sameBits v = true) (h' : v.sameBits w = true) : u.sameBits w = true := by
  obtain ⟨hlen, hword⟩ := sameBits_iff.1 h
  obtain ⟨hlen', hword'⟩ := sameBits_iff.1 h'
  exact sameBits_iff.2 ⟨hlen.trans hlen', fun i hi => (hword i hi).trans (hword' i (hlen ▸ hi))⟩

section eqV
variable {s : State} {va vb : VIdx} (ha : va.toNat < s.cfg.nv) (hb : vb.toNat < s.cfg.nv)
include ha hb

theorem answers_sameBits :
    Answers (.eqV va vb) s 0#4 (if (s.vec va).sameBits (s.vec vb) then 1#64 else 0#64) := by
  rw [← ofBool_zeroExtend]
  exact answers_of_exec (exec_eqV ha hb)

/-- EQ answers 1 for nothing but a positive verdict: a negative one answers 0. -/
theorem answers_eqV_one_iff : Answers (.eqV va vb) s 0#4 1#64 ↔ (s.vec va).sameBits (s.vec vb) = true := by
  have hanswer := answers_sameBits ha hb
  refine ⟨fun h => ?_, fun h => by rwa [if_pos h] at hanswer⟩
  by_contra hne
  rw [if_neg hne] at hanswer
  obtain ⟨t, ht, hends⟩ := hanswer
  have hresult : (1#64) = 0#64 := (h.response ht).2.symm.trans hends.result
  exact absurd hresult (by decide)

end eqV

/-- Settles O46: EQ answers its verdict, which is `sameBits_iff`. -/
theorem eqComparesLengthAndWords : Obligations.EqComparesLengthAndWords := by
  refine ⟨fun _ hm => decode_ok_iff.2 ⟨hm, rfl⟩, fun s va vb ha hb => ⟨fun h => ?equal, fun h => ?different⟩⟩
  case equal => exact (answers_eqV_one_iff ha hb).2 (sameBits_iff.2 h)
  case different =>
    have hanswer := answers_sameBits ha hb
    rwa [if_neg (sameBits_iff.not.2 h)] at hanswer

/-! ### COPY (R161) -/

/-- Settles O47: COPY writes the vector of its source into its receiver. -/
theorem copyMakesAnEqualVector : Obligations.CopyMakesAnEqualVector := by
  refine ⟨fun _ hm => decode_ok_iff.2 ⟨hm, rfl⟩, fun s va vb hs ha hb => ?_⟩
  obtain ⟨t, hexec, hends, hvec⟩ := (writesOp_copy ha hb).ends hs
  refine ⟨t, hexec, hends, ?_⟩
  rw [hvec]
  exact ⟨rfl, rfl, rfl, fun _ => rfl, fun h => by rw [h]⟩

/-- After a COPY its two operands hold one vector. -/
theorem vec_eq_of_copy {s t : State} {a b : VIdx} (hs : s.Wf) (ha : a.toNat < s.cfg.nv) (hb : b.toNat < s.cfg.nv)
    (h : exec (.copy a b) s = .next t) : t.vec a = t.vec b := by
  have hcopy := writesOp_copy ha hb
  by_cases hba : b = a
  · rw [hba]
  · rw [hcopy.vec hs h, hcopy.vec_other h hba]

/-! ### The laws of EQ and COPY (R162) -/

/-- Commands with one outcome answer alike. -/
theorem answers_congr {i j : Instr} {s : State} (h : exec i s = exec j s) (c : BitVec 4) (r : BitVec 64) :
    Answers i s c r ↔ Answers j s c r := by
  rw [Answers, h, Answers]

/-- Settles O48: EQ inherits the laws of its verdict, and what a command reads of one vector it reads of an equal one. -/
theorem compareAndCopyLaws : Obligations.CompareAndCopyLaws := by
  intro s a b c hs ha hb hc
  refine ⟨?refl, ?symm, ?trans, fun t h => ?copy⟩
  case refl => exact (answers_eqV_one_iff ha ha).2 (sameBits_refl _)
  case symm =>
    rw [answers_eqV_one_iff ha hb, answers_eqV_one_iff hb ha]
    exact sameBits_symm
  case trans =>
    rw [answers_eqV_one_iff ha hb, answers_eqV_one_iff hb hc, answers_eqV_one_iff ha hc]
    exact sameBits_trans
  case copy =>
    have hvec := vec_eq_of_copy hs ha hb h
    rw [← exec_cfg h] at ha hb
    have hrdfix : exec (.rdfix a) t = exec (.rdfix b) t := by rw [exec_rdfix ha, exec_rdfix hb, hvec]
    have hcount : exec (.count a) t = exec (.count b) t := by rw [exec_count ha, exec_count hb, hvec]
    refine ⟨(answers_eqV_one_iff ha hb).2 ?_, answers_congr hrdfix _, answers_congr hcount _⟩
    rw [hvec]
    exact sameBits_refl _

end Sys2Proof.Machine

/-! ## Proofs of the statements about word access (spec/45_word_access.md)

What they rest on: the three ways a write of one bucket can end (`exec_bucketWrite_cases`), what a sequence of commands
keeps and answers, and the contents of a vector as the list that `toBuckets` or `toArray` reads. -/

namespace Sys2Proof.Machine

/-! ### RDW and WRW (R180, R181) -/

/-- Settles O50: RDW reads the word space, and R28 ties the length of a fixed vector to its capacity. -/
theorem rdwReadsOneBucket : Obligations.RdwReadsOneBucket := by
  refine ⟨fun c hm => decode_ok_iff.2 ⟨hm, rfl⟩, fun s va idx hs ha =>
    ⟨fun hl => ?beyond, fun _ => ?below, fun hf => ?fixed⟩⟩
  all_goals have hv := hs.vectors va ha
  case beyond =>
    have hanswer := answers_rdw hs ha idx
    rwa [hv.zero_beyond _ hl] at hanswer
  case below => exact ⟨_, answers_rdw hs ha idx, BitVec.toNat_setWidth_of_le (by decide)⟩
  case fixed =>
    rw [hv.fixed_cap hf]
    omega

/-- Settles O51: the three clauses are the three ways a write of one bucket ends. -/
theorem wrwWritesOneBucket : Obligations.WrwWritesOneBucket := by
  refine ⟨fun c hm => decode_ok_iff.2 ⟨hm, rfl⟩, fun s va idx d hs ha => ?_⟩
  have hclamp := @wordClamped_iff (s.vec va) idx.toNat
  obtain ⟨hc, he⟩ | ⟨hc, -, hnb, he⟩ | ⟨hc, hnb, v, he, -, hlen, hfix, hcap, hword⟩ :=
    exec_bucketWrite_cases (i := .wrw va idx d) rfl hs ha
  · exact ⟨fun _ _ => answers_of_exec he, fun hn => absurd (hclamp.1 hc) hn, fun hn => absurd (hclamp.1 hc) hn⟩
  · exact ⟨fun hf hle => absurd (hclamp.2 ⟨hf, hle⟩) hc, fun _ _ => ⟨_, answers_of_exec he, growResult_toNat⟩,
      fun _ hlt => absurd hlt (not_lt.2 hnb)⟩
  · refine ⟨fun hf hle => absurd (hclamp.2 ⟨hf, hle⟩) hc, fun _ hge => absurd hge (not_le.2 hnb),
      fun _ _ => ⟨_, he, ends_setVec_finish s va v _ _, ?_⟩⟩
    have hread := answers_rdw (exec_wf hs he) ha idx
    rw [written_vec hs ha] at hread ⊢
    refine ⟨hfix, hcap, hlen, hword, ?_⟩
    rwa [hword, if_pos rfl] at hread

/-! ### Commands issued one after the other (R54, R62) -/

theorem issue_cons_iff {i : Instr} {rest : List Instr} {s t : State} :
    issue (i :: rest) s = .next t ↔ ∃ m, exec i s = .next m ∧ issue rest m = .next t := by
  obtain ⟨m, hm⟩ := exec_next i s
  simp [issue, hm]

/-- Every sequence of commands is issued to its end (R206). -/
theorem issue_next : ∀ (is : List Instr) (s : State), ∃ t, issue is s = .next t
  | [], s => ⟨s, rfl⟩
  | i :: rest, s => by
    obtain ⟨m, hm⟩ := exec_next i s
    obtain ⟨t, ht⟩ := issue_next rest m
    exact ⟨t, issue_cons_iff.2 ⟨m, hm, ht⟩⟩

/-- What each command of a sequence keeps, the sequence keeps. -/
theorem issue_keeps {P : State → Prop} {is : List Instr}
    (hstep : ∀ i ∈ is, ∀ s t : State, P s → exec i s = .next t → P t) {s t : State} (hs : P s)
    (h : issue is s = .next t) : P t := by
  induction is generalizing s with
  | nil =>
    cases h
    exact hs
  | cons i rest ih =>
    obtain ⟨m, hm, hrest⟩ := issue_cons_iff.1 h
    exact ih (fun j hj => hstep j (.tail _ hj)) (hstep i (.head _) s m hs hm) hrest

theorem issue_wf {is : List Instr} {s t : State} (hs : s.Wf) (h : issue is s = .next t) : t.Wf :=
  issue_keeps (fun _ _ _ _ => exec_wf) hs h

theorem issue_cfg {is : List Instr} {s t : State} (h : issue is s = .next t) : t.cfg = s.cfg :=
  issue_keeps (P := fun u => u.cfg = s.cfg) (fun _ _ _ _ hu h => (exec_cfg h).trans hu) rfl h

/-- A sequence of commands with one receiver leaves every other vector alone (R21, R40). -/
theorem issue_vec_ne {is : List Instr} {s t : State} {va b : VIdx} (hr : ∀ i ∈ is, i.receiver = some va)
    (hb : b ≠ va) (h : issue is s = .next t) : t.vec b = s.vec b := by
  have hother : ∀ i ∈ is, i.receiver ≠ some b := fun i hi he => hb (Option.some.inj (he.symm.trans (hr i hi)))
  exact issue_keeps (P := fun u => u.vec b = s.vec b) (fun i hi _ _ hu h => (exec_vec_other h (hother i hi)).trans hu)
    rfl h

theorem responses_cons {i : Instr} {rest : List Instr} {s t : State} (h : exec i s = .next t) :
    responses (i :: rest) s = t.result :: responses rest t := by
  rw [responses, h]

/-- The responses of a sequence of commands whose answers the vector `va` alone determines: none of them writes it. -/
theorem responses_map {α : Type} {f : α → Instr} {r : α → BitVec 64} {va : VIdx} {xs : List α} {s : State} (hs : s.Wf)
    (ha : va.toNat < s.cfg.nv)
    (h : ∀ u : State, u.Wf → va.toNat < u.cfg.nv → u.vec va = s.vec va → ∀ x ∈ xs, Answers (f x) u 0#4 (r x)) :
    responses (xs.map f) s = xs.map r := by
  induction xs generalizing s with
  | nil => rfl
  | cons x xs ih =>
    obtain ⟨t, ht, hends⟩ := h s hs ha rfl x (.head _)
    have hvec : t.vec va = s.vec va := hends.others va List.not_mem_nil
    rw [List.map_cons, responses_cons ht, hends.result, List.map_cons,
      ih (exec_wf hs ht) (exec_cfg ht ▸ ha) fun u hu hau huv y hy => h u hu hau (huv.trans hvec) y (.tail _ hy)]

/-- An offset or a length within the storage fits `OPND`. -/
theorem toNat_opnd_ofNat {c : Config} {n : Nat} (h : n ≤ c.nb * 32) : (BitVec.ofNat 64 n).toNat = n := by
  have hnb := c.nb_le
  rw [BitVec.toNat_ofNat]
  omega

theorem count_le {nb : Nat} {v : VReg} (h : v.Wf nb) : v.count ≤ nb * 32 := by
  have hle := h.len_le
  have hcount := VRegWf.count_eq h
  omega

/-! ### fromBuckets and toBuckets (R182) -/

/-- The words of a vector below its length, in index order. -/
def VReg.words (v : VReg) : List Word := (List.range v.len.toNat).map v.word

@[simp] theorem length_words (v : VReg) : v.words.length = v.len.toNat := by simp [VReg.words]

/-- `toBuckets` reads the words. -/
theorem toBuckets_eq_words {s : State} (hs : s.Wf) {va : VIdx} (ha : va.toNat < s.cfg.nv) :
    toBuckets va s = (s.vec va).words := by
  have hle := (hs.vectors va ha).len_le
  have hlen : ((responses [.rdlen va] s).headD 0#64).toNat = (s.vec va).len.toNat := by
    rw [responses_cons (exec_rdlen ha)]
    exact BitVec.toNat_setWidth_of_le (by decide : 33 ≤ 64)
  have hread : responses ((List.range (s.vec va).len.toNat).map fun i => .rdw va (BitVec.ofNat 64 i)) s =
      (List.range (s.vec va).len.toNat).map fun i => ((s.vec va).word i).zeroExtend 64 := by
    refine responses_map hs ha fun u hu hau huv i hi => ?_
    have hi' := List.mem_range.1 hi
    have hanswer := answers_rdw hu hau (BitVec.ofNat 64 i)
    rwa [huv, toNat_opnd_ofNat (c := s.cfg) (by omega)] at hanswer
  rw [toBuckets, hlen, hread]
  simp [VReg.words]

/-- WRW of the bucket at the length of an unfixed vector appends the word. -/
theorem words_of_wrw {s t : State} (hs : s.Wf) {va : VIdx} (ha : va.toNat < s.cfg.nv) {idx : Opnd} {d : Word}
    (hf : (s.vec va).fixed = false) (hidx : idx.toNat = (s.vec va).len.toNat) (hnb : idx.toNat < s.cfg.nb)
    (h : exec (.wrw va idx d) s = .next t) :
    (t.vec va).fixed = false ∧ (t.vec va).words = (s.vec va).words ++ [d] := by
  obtain ⟨t', ht', -, hfix, -, hlen, hword, -⟩ :=
    (wrwWritesOneBucket.2 s va idx d hs ha).2.2 (by simp [hf]) hnb
  cases exec_unique h ht'
  refine ⟨hfix.trans hf, ?_⟩
  rw [hidx] at hword hlen
  rw [max_eq_right (Nat.le_succ _)] at hlen
  have hbelow : ∀ k ∈ List.range (s.vec va).len.toNat, (t.vec va).word k = (s.vec va).word k := fun k hk => by
    rw [hword, if_neg (List.mem_range.1 hk).ne]
  rw [VReg.words, hlen, List.range_succ, List.map_append, List.map_congr_left hbelow, List.map_singleton, hword,
    if_pos rfl, VReg.words]

/-- On an unfixed vector with room for them, the writes of `fromBuckets` append their words. -/
theorem words_of_writeBuckets {va : VIdx} {ws : List Word} {s t : State} (hs : s.Wf) (ha : va.toNat < s.cfg.nv)
    (hf : (s.vec va).fixed = false) {n : Nat} (hn : (s.vec va).len.toNat = n) (hfit : n + ws.length ≤ s.cfg.nb)
    (h : issue (writeBuckets va n ws) s = .next t) :
    (t.vec va).fixed = false ∧ (t.vec va).words = (s.vec va).words ++ ws := by
  induction ws generalizing s n with
  | nil =>
    cases h
    exact ⟨hf, (List.append_nil _).symm⟩
  | cons w ws ih =>
    obtain ⟨m, hm, hrest⟩ := issue_cons_iff.1 h
    rw [List.length_cons] at hfit
    have hidx : (BitVec.ofNat 64 n).toNat = n := toNat_opnd_ofNat (c := s.cfg) (by omega)
    obtain ⟨hmf, hmw⟩ := words_of_wrw hs ha hf (hidx.trans hn.symm) (by omega) hm
    have hcfg := exec_cfg hm
    have hmn : (m.vec va).len.toNat = n + 1 := by rw [← length_words, hmw, List.length_append, length_words, hn]; rfl
    obtain ⟨htf, htw⟩ := ih (exec_wf hs hm) (hcfg ▸ ha) hmf hmn (by rw [hcfg]; omega) hrest
    exact ⟨htf, by rw [htw, hmw, List.append_assoc]; rfl⟩

theorem receiver_of_mem_writeBuckets {va : VIdx} {ws : List Word} {n : Nat} {i : Instr}
    (h : i ∈ writeBuckets va n ws) : i.receiver = some va := by
  induction ws generalizing n with
  | nil => cases h
  | cons w ws ih =>
    obtain rfl | h := List.mem_cons.1 h
    · rfl
    · exact ih h

theorem receiver_of_mem_fromBuckets {va : VIdx} {ws : List Word} {i : Instr} (h : i ∈ fromBuckets va ws) :
    i.receiver = some va := by
  obtain rfl | h := List.mem_cons.1 h
  · rfl
  · exact receiver_of_mem_writeBuckets h

/-- Settles O54: INIT empties the vector, each WRW appends its word, and RDW reads the words. -/
theorem bucketsRoundTrip : Obligations.BucketsRoundTrip := by
  intro s va ws hs ha hfit
  obtain ⟨t, ht⟩ := issue_next (fromBuckets va ws) s
  obtain ⟨m, hm, hrest⟩ := issue_cons_iff.1 ht
  have hcfg : m.cfg = s.cfg := exec_cfg hm
  have hempty : m.vec va = VReg.empty := (writesOp_init_unsized ha _).vec hs hm
  obtain ⟨hf, hwords⟩ := words_of_writeBuckets (n := 0) (exec_wf hs hm) (hcfg ▸ ha) (by rw [hempty]; rfl)
    (by rw [hempty]; rfl) (by rwa [hcfg, Nat.zero_add]) hrest
  rw [hempty, show VReg.empty.words = [] from rfl, List.nil_append] at hwords
  refine ⟨t, ht, hf, ?length, fun b hb => ?others, ?read⟩
  case length => rw [← length_words, hwords]
  case others => exact issue_vec_ne (fun _ => receiver_of_mem_fromBuckets) hb ht
  case read => rw [toBuckets_eq_words (issue_wf hs ht) (issue_cfg ht ▸ ha), hwords]

/-! ### fromArray and toArray (R47, R182) -/

/-- The bits of a vector that its count covers, in offset order. -/
def VReg.bits (v : VReg) : List Bool := (List.range v.count).map v.bit

@[simp] theorem length_bits (v : VReg) : v.bits.length = v.count := by simp [VReg.bits]

/-- `toArray` reads the bits. -/
theorem toArray_eq_bits {s : State} (hs : s.Wf) {va : VIdx} (ha : va.toNat < s.cfg.nv) :
    toArray va s = (s.vec va).bits := by
  have hle := count_le (hs.vectors va ha)
  have hlen : ((responses [.count va] s).headD 0#64).toNat = (s.vec va).count := by
    rw [responses_cons (exec_count ha)]
    exact toNat_opnd_ofNat hle
  have hread : responses ((List.range (s.vec va).count).map fun i => .testBit va (BitVec.ofNat 64 i)) s =
      (List.range (s.vec va).count).map fun i => if (s.vec va).bit i then 1#64 else 0#64 := by
    refine responses_map hs ha fun u hu hau huv i hi => ?_
    have hi' := List.mem_range.1 hi
    have hanswer := answers_testBit hu hau (BitVec.ofNat 64 i)
    rwa [huv, toNat_opnd_ofNat (c := s.cfg) (by omega)] at hanswer
  have hbit : ∀ b : Bool, ((if b then 1#64 else 0#64) != 0#64) = b := by decide
  rw [toArray, hlen, hread]
  simp [VReg.bits, hbit]

/-- SET of an offset below the capacity of a fixed vector sets its element, and the vector stays fixed. -/
theorem bits_of_setBit {s t : State} (hs : s.Wf) {va : VIdx} (ha : va.toNat < s.cfg.nv) {off : Opnd}
    (hf : (s.vec va).fixed = true) (hoff : off.toNat < (s.vec va).count) (h : exec (.setBit va off) s = .next t) :
    (t.vec va).fixed = true ∧ (t.vec va).bits = (s.vec va).bits.set off.toNat true := by
  have hcap : (s.vec va).count = (s.vec va).cap.toNat := if_pos hf
  have hle := (hs.vectors va ha).cap_le
  obtain ⟨t', ht', -, hfix, hcap', -, hbit⟩ := (setWritesOne.2 s va off hs ha).2.2 (by rw [Clamps]; omega) (by omega)
  cases exec_unique h ht'
  refine ⟨hfix.trans hf, ?_⟩
  have hcount : (t.vec va).count = (s.vec va).count := by rw [VReg.count, VReg.count, hfix, hcap', hf]; rfl
  refine List.ext_getElem (by simp [hcount]) fun k _ _ => ?_
  simp [VReg.bits, List.getElem_set, hbit, eq_comm]

/-- The SETs of `fromArray`, on a fixed vector whose elements are false where the list is to stand, write the list
there. -/
theorem bits_of_setTrue {va : VIdx} {bs pre suf : List Bool} {s t : State} (hs : s.Wf) (ha : va.toNat < s.cfg.nv)
    (hf : (s.vec va).fixed = true) (hbits : (s.vec va).bits = pre ++ (List.replicate bs.length false ++ suf))
    (h : issue (setTrue va pre.length bs) s = .next t) :
    (t.vec va).fixed = true ∧ (t.vec va).bits = pre ++ (bs ++ suf) := by
  induction bs generalizing s pre with
  | nil =>
    cases h
    exact ⟨hf, hbits⟩
  | cons b bs ih =>
    have hnext : ∀ m : State, m.Wf → m.cfg = s.cfg → (m.vec va).fixed = true →
        (m.vec va).bits = pre ++ b :: (List.replicate bs.length false ++ suf) →
        issue (setTrue va (pre.length + 1) bs) m = .next t →
        (t.vec va).fixed = true ∧ (t.vec va).bits = pre ++ (b :: bs ++ suf) := fun m hm hcfg hmf hmb hrest => by
      have hih := ih (pre := pre ++ [b]) hm (hcfg ▸ ha) hmf (by simpa using hmb) (by simpa using hrest)
      simpa using hih
    cases b with
    | false => exact hnext s hs rfl hf hbits h
    | true =>
      obtain ⟨m, hm, hrest⟩ := issue_cons_iff.1 h
      have hle := count_le (hs.vectors va ha)
      have hlt : pre.length < (s.vec va).count := by
        rw [← length_bits, hbits]
        simp [List.replicate_succ]
      have hoff : (BitVec.ofNat 64 pre.length).toNat = pre.length := toNat_opnd_ofNat (hlt.le.trans hle)
      obtain ⟨hmf, hmb⟩ := bits_of_setBit hs ha hf (by rwa [hoff]) hm
      refine hnext m (exec_wf hs hm) (exec_cfg hm) hmf ?_ hrest
      rw [hmb, hoff, hbits]
      simp [List.replicate_succ]

/-- A sized INIT without fill leaves its elements false. -/
theorem sized_bits {nb n : Nat} (hnb : nb ≤ 2 ^ 32) (hn : n ≤ nb * 32) :
    (VReg.sized n .absent).bits = List.replicate ((n + 31) / 32 * 32) false := by
  have hcount : (VReg.sized n .absent).count = (n + 31) / 32 * 32 := sized_cap hnb hn _
  refine List.ext_getElem (by simp [hcount]) fun k _ _ => ?_
  simp [VReg.bits, VReg.bit, sized_word]

theorem receiver_of_mem_setTrue {va : VIdx} {bs : List Bool} {n : Nat} {i : Instr} (h : i ∈ setTrue va n bs) :
    i.receiver = some va := by
  induction bs generalizing n with
  | nil => cases h
  | cons b bs ih =>
    cases b with
    | false => exact ih h
    | true =>
      obtain rfl | h := List.mem_cons.1 h
      · rfl
      · exact ih h

theorem receiver_of_mem_fromArray {va : VIdx} {bs : List Bool} {i : Instr} (h : i ∈ fromArray va bs) :
    i.receiver = some va := by
  obtain rfl | h := List.mem_cons.1 h
  · rfl
  · exact receiver_of_mem_setTrue h

/-- Settles O55: INIT leaves the rounded-up number of false elements, the SETs write the list over the first of them,
and TEST reads the elements. -/
theorem arrayRoundTrip : Obligations.ArrayRoundTrip := by
  intro s va bs hs ha hfit
  have hn : (BitVec.ofNat 64 bs.length).toNat = bs.length := toNat_opnd_ofNat hfit
  obtain ⟨t, ht⟩ := issue_next (fromArray va bs) s
  obtain ⟨m, hm, hrest⟩ := issue_cons_iff.1 ht
  have hsized : m.vec va = VReg.sized bs.length .absent := by
    rw [(writesOp_init_sized ha _ (by rwa [hn])).vec hs hm, hn]
  have hinit : (m.vec va).bits =
      List.replicate bs.length false ++ List.replicate ((bs.length + 31) / 32 * 32 - bs.length) false := by
    rw [hsized, sized_bits s.cfg.nb_le hfit, List.replicate_append_replicate]
    congr 1
    omega
  obtain ⟨hf, hbits⟩ :=
    bits_of_setTrue (pre := []) (exec_wf hs hm) (exec_cfg hm ▸ ha) (by rw [hsized]; rfl) hinit hrest
  rw [List.nil_append] at hbits
  refine ⟨t, ht, hf, ?capacity, fun b hb => ?others, ?read⟩
  case capacity =>
    have hcount : (t.vec va).count = (t.vec va).cap.toNat := if_pos hf
    rw [← hcount, ← length_bits, hbits, List.length_append, List.length_replicate]
    omega
  case others => exact issue_vec_ne (fun _ => receiver_of_mem_fromArray) hb ht
  case read => rw [toArray_eq_bits (issue_wf hs ht) (issue_cfg ht ▸ ha), hbits]

end Sys2Proof.Machine

/-! ## Proofs of the statements about the status codes (spec/60_exceptions.md)

What they rest on: the two ways a command ends (`exec_cases`), and which of the four codes each command ends with
(`exec_ending`). -/

namespace Sys2Proof.Machine

/-! ### A command that fails has written nothing (R207) -/

/-- Settles O21: a command that writes its receiver ends `OK`. -/
theorem failedCommandsChangeNoVector : Obligations.FailedCommandsChangeNoVector := by
  intro i s t h hfail
  obtain ⟨c, r, -, he⟩ | ⟨va, v, -, -, he, -⟩ := exec_cases i s <;> cases exec_unique h he
  case inl => rfl
  case inr => exact absurd hfail (by decide : ¬ (statusOK = 1#4 ∨ statusOK = 2#4 ∨ statusOK = 3#4))

/-! ### Which status a command reports (R200, R205) -/

/-- The command writes one bucket, at or beyond `NB`, of an unfixed vector (R202). -/
def WritesBeyondStorage (i : Instr) (s : State) : Prop :=
  ∃ b, bucketWrite i = some b ∧ (s.vec b.va).fixed = false ∧ s.cfg.nb ≤ b.idx

/-- The command is a sized INIT of more than `NB * 32` bits (R203). -/
def SizedBeyondStorage (i : Instr) (s : State) : Prop :=
  ∃ va n fm, i = .init va (some n) fm ∧ s.cfg.nb * 32 < n.toNat

theorem writesBeyondStorage_iff {i : Instr} {s : State} :
    WritesBeyondStorage i s ↔
      (∃ va off, (i = .setBit va off ∨ i = .unsetBit va off ∨ i = .toggleBit va off) ∧
        (s.vec va).fixed = false ∧ s.cfg.nb ≤ off.toNat / 32) ∨
      ∃ va idx d, i = .wrw va idx d ∧ (s.vec va).fixed = false ∧ s.cfg.nb ≤ idx.toNat := by
  cases i <;> simp [WritesBeyondStorage, bucketWrite, bucketIndex_eq]

/-- `Ending i s t`: the command `i`, run from `s`, ends in `t` with one of the four codes, for the one reason R200 gives
for it. -/
inductive Ending (i : Instr) (s : State) : State → Prop
  | ok {t : State} (status : t.status = statusOK) (legal : i.wf s.cfg = true) (fits : ¬ WritesBeyondStorage i s)
      (small : ¬ SizedBeyondStorage i s) : Ending i s t
  | illegal (unknown : i.wf s.cfg = false) : Ending i s s.raiseIllegal
  | grow (needed : Nat) (legal : i.wf s.cfg = true) (beyond : WritesBeyondStorage i s)
      (small : ¬ SizedBeyondStorage i s) : Ending i s (s.raiseGrow needed)
  | size (legal : i.wf s.cfg = true) (fits : ¬ WritesBeyondStorage i s) (large : SizedBeyondStorage i s) :
      Ending i s s.raiseSize

theorem not_sizedBeyondStorage_of_bucketWrite {i : Instr} {b : BucketWrite} (hb : bucketWrite i = some b) (s : State) :
    ¬ SizedBeyondStorage i s := by
  rintro ⟨va, n, fm, rfl, -⟩
  cases hb

theorem not_writesBeyondStorage_of_not_bucketWrite {i : Instr} (hb : bucketWrite i = none) (s : State) :
    ¬ WritesBeyondStorage i s := by
  rintro ⟨b, hb', -⟩
  cases hb.symm.trans hb'

/-- A write of one bucket answers `GROW` beyond storage, where the clamp does not come first, and else `OK`. -/
theorem bucketWrite_ending {i : Instr} {b : BucketWrite} (hb : bucketWrite i = some b) {s t : State} (hs : s.Wf)
    (hwf : i.wf s.cfg = true) (h : exec i s = .next t) : Ending i s t := by
  have ha := exists_of_wf hwf b.va (receiver_mem_vectors (bucketWrite_receiver hb))
  have hsmall := not_sizedBeyondStorage_of_bucketWrite hb s
  have hfits (hin : (s.vec b.va).fixed = false → b.idx < s.cfg.nb) : ¬ WritesBeyondStorage i s := by
    rintro ⟨b', hb', hf, hnb⟩
    cases hb.symm.trans hb'
    exact absurd hnb (not_le.2 (hin hf))
  obtain ⟨hc, he⟩ | ⟨-, hf, hnb, he⟩ | ⟨-, hlt, v, he, -⟩ := exec_bucketWrite_cases hb hs ha <;> cases exec_unique h he
  · exact .ok rfl hwf (hfits fun hf => by simp [bucketWrite_fixed hb hc] at hf) hsmall
  · exact .grow _ hwf ⟨b, hb, hf, hnb⟩ hsmall
  · exact .ok rfl hwf (hfits fun _ => hlt) hsmall

/-- A sized INIT answers `SIZE` where the size does not fit storage, and else `OK`. -/
theorem init_sized_ending {va : VIdx} {n : Opnd} {fm : FillMode} {s t : State}
    (hwf : (Instr.init va (some n) fm).wf s.cfg = true) (h : exec (.init va (some n) fm) s = .next t) :
    Ending (.init va (some n) fm) s t := by
  have ha := (wf_one rfl).1 hwf
  have hfits := not_writesBeyondStorage_of_not_bucketWrite (i := .init va (some n) fm) rfl s
  by_cases hn : s.cfg.nb * 32 < n.toNat
  · cases exec_unique h (exec_init_size ha fm hn)
    exact .size hwf hfits ⟨va, n, fm, rfl, hn⟩
  · cases exec_unique h (exec_init_sized ha fm (not_lt.1 hn))
    refine .ok rfl hwf hfits ?_
    rintro ⟨_, _, _, hi, hlt⟩
    cases hi
    exact hn hlt

/-- Every command ends with one of the four codes, for its reason: first the check of the vectors, then the command's own
(R205). -/
theorem exec_ending {i : Instr} {s t : State} (hs : s.Wf) (h : exec i s = .next t) : Ending i s t := by
  cases hwf : i.wf s.cfg with
  | false =>
    cases exec_unique h (exec_illegal hwf)
    exact .illegal hwf
  | true =>
    cases hb : bucketWrite i with
    | some b => exact bucketWrite_ending hb hs hwf h
    | none =>
      by_cases hi : ∃ va n fm, i = .init va (some n) fm
      · obtain ⟨va, n, fm, rfl⟩ := hi
        exact init_sized_ending hwf h
      · refine .ok (exec_ok hwf hb (fun va n fm he => hi ⟨va, n, fm, he⟩) h) hwf
          (not_writesBeyondStorage_of_not_bucketWrite hb s) ?_
        rintro ⟨va, n, fm, he, -⟩
        exact hi ⟨va, n, fm, he⟩

/-- Settles O22: the reasons of the four endings exclude each other, and so do their codes. -/
theorem statusSaysWhatHappened : Obligations.StatusSaysWhatHappened := by
  intro i s t hs h
  rw [← writesBeyondStorage_iff, ← SizedBeyondStorage]
  cases exec_ending hs h with
  | ok hok hwf hfits hsmall => simp [hok, hwf, hfits, hsmall, statusOK]
  | illegal hwf => simp [State.raiseIllegal, hwf, statusILLEGAL]
  | grow needed hwf hbeyond hsmall => simp [State.raiseGrow, hwf, hbeyond, hsmall, statusGROW]
  | size hwf hfits hlarge => simp [State.raiseSize, hwf, hfits, hlarge, statusSIZE]

/-! ### A step answers a word that fails decode (R201, R206) -/

theorem perform_error {c : Command} {d : DecodeError} (h : decode c = .error d) (s : State) :
    perform c s = .next s.raiseIllegal := by
  rw [perform, h]

/-- Settles O11: accepted or in flight, the word is the pending command, and it completes with `ILLEGAL`. -/
theorem stepAnswersIllegalWords : Obligations.StepAnswersIllegalWords := by
  intro s e rest c d he hr hd hdec hc
  obtain ⟨hp, hb⟩ : s.pending e = some c ∧ s.breaksHold e = false := by
    obtain ⟨hv, rfl, hready, hf, hheld⟩ | ⟨hf, hb⟩ := hc
    · exact ⟨if_pos (accepts_iff.2 ⟨hr, hv, hready, hf⟩), breaksHold_of_held hv hheld⟩
    · exact ⟨by simp [State.pending, accepts_inFlight hf e, hf], hb⟩
  exact ⟨_, step_complete he hr hb hp hd (perform_error hdec _), rfl, rfl, rfl, rfl, rfl, rfl⟩

end Sys2Proof.Machine

/-! ## Proofs of the statements about reset and hazards (spec/70_reset_and_hazards.md)

What they rest on: the refusals and the answers of a step, each for the edge that causes it, and the two reset states of a
vector, by a reset edge and by an unsized INIT, being one. -/

namespace Sys2Proof.Machine

/-! ### Unlawful hosts (R236, I4) -/

/-- Withdrawing or changing the command the host has to hold, in the words of R236. -/
theorem breaksHold_iff {s : State} {e : Edge} :
    s.breaksHold e = true ↔ ∃ c, s.offered = some c ∧ ¬ (e.cmdValid = true ∧ e.cmd = c) := by
  rw [State.breaksHold]
  cases s.offered with
  | none => simp
  | some c => cases e.cmdValid <;> simp

/-- A lawful host presents nothing at a reset edge, and holds what it presented at any other. -/
theorem hostLegal_iff {s : State} :
    s.hostLegal = true ↔
      (s.nextEdge.rst = true ∧ s.nextEdge.cmdValid = false) ∨
      (s.nextEdge.rst = false ∧ s.breaksHold s.nextEdge = false) := by
  rw [State.hostLegal]
  cases s.nextEdge.rst <;> simp

/-- A command presented at a reset edge is refused (I4). -/
theorem step_commandDuringReset {s : State} (hr : s.nextEdge.rst = true) (hv : s.nextEdge.cmdValid = true) :
    step s = .refused .commandDuringReset := by
  simp only [step, clockEdge, hr, hv, if_true]

/-- A command withdrawn or changed before its acceptance is refused (R236). -/
theorem step_unstableCommand {s : State} (hr : s.nextEdge.rst = false) (hb : s.breaksHold s.nextEdge = true) :
    step s = .refused .unstableCommand := by
  simp only [step, clockEdge, hr, hb, Bool.false_eq_true, if_false, if_true]

/-! ### Lawful hosts -/

/-- `step_complete` at any edge, also one beyond the list, where a command in flight may still complete. -/
theorem step_respond {s u : State} {c : Command} (hr : s.nextEdge.rst = false) (hb : s.breaksHold s.nextEdge = false)
    (hp : s.pending s.nextEdge = some c) (hd : s.nextEdge.done = true) (hu : perform c s.atEdge = .next u) :
    step s = .next u.respond := by
  rw [State.atEdge] at hu
  simp only [step, clockEdge, hr, hb, hp, hd, complete, hu, Bool.false_eq_true, if_false, if_true]

/-- A lawful edge without reset answers: the port is idle, or the pending command stays in flight or completes. -/
theorem step_next_of_holds {s : State} (hr : s.nextEdge.rst = false) (hb : s.breaksHold s.nextEdge = false) :
    ∃ t, step s = .next t := by
  cases hp : s.pending s.nextEdge with
  | none => exact ⟨_, step_idle hr hb hp⟩
  | some c =>
    cases hd : s.nextEdge.done with
    | false => exact ⟨_, step_stayBusy hr hb hp hd⟩
    | true =>
      obtain ⟨u, hu⟩ := perform_next c s.atEdge
      exact ⟨_, step_respond hr hb hp hd hu⟩

/-- Every step of a lawful host answers. -/
theorem step_next_of_hostLegal {s : State} (h : s.hostLegal = true) : ∃ t, step s = .next t := by
  obtain ⟨hr, hv⟩ | ⟨hr, hb⟩ := hostLegal_iff.1 h
  · exact ⟨_, step_reset hr hv⟩
  · exact step_next_of_holds hr hb

/-- No step changes the parameters (R35). -/
theorem step_cfg {s t : State} (h : step s = .next t) : t.cfg = s.cfg := by
  obtain ⟨-, -, rfl⟩ | ⟨-, -, ⟨c, u, -, -, hu, rfl⟩ | ⟨c, -, -, rfl⟩ | ⟨-, rfl⟩⟩ := step_cases h
  · rfl
  · exact (perform_cfg hu).trans (atEdge_cfg s)
  · exact atEdge_cfg s
  · exact atEdge_cfg s

/-- Settles O17: two kinds of edge are refused, and every edge of a lawful host answers. -/
theorem stepRefusesExactlyUnlawfulHosts : Obligations.StepRefusesExactlyUnlawfulHosts := by
  intro s
  refine ⟨step_commandDuringReset, fun hr hbreak => step_unstableCommand hr (breaksHold_iff.2 hbreak), fun hlegal => ?_⟩
  obtain ⟨t, ht⟩ := step_next_of_hostLegal hlegal
  exact ⟨t, ht, step_cfg ht⟩

/-! ### The reset of one vector (R233) -/

/-- Settles O28: the unsized INIT writes its receiver alone, with the empty vector, which is every vector of a reset state. -/
theorem unsizedInitIsVectorReset : Obligations.UnsizedInitIsVectorReset := by
  intro s va fm hs ha
  obtain ⟨t, hexec, hends, hvec⟩ := (writesOp_init_unsized ha fm).ends hs
  exact ⟨t, hexec, by rw [hvec, resetOf_vec], fun b hb => hends.others b (by simpa using hb)⟩

end Sys2Proof.Machine
